-- ==== Sys2Proof/Word.lean ====
section
/-! DEFINITION. The word and byte types of the engine (00_scope.md R7, R9): all values are unsigned. -/

namespace Sys2Proof

/-- A Word: an unsigned 32-bit integer, bit 0 the least significant (R7). -/
abbrev Word := BitVec 32

/-- One byte of the message stream (R9). -/
abbrev Byte := BitVec 8

/-- A MessageBlock: 64 bytes, byte 0 first in stream order (R5 BLOCK_BYTES, R9). -/
abbrev Block := Vector Byte 64

end Sys2Proof
end

