-- ==== Sys2Proof/Config.lean ====
section
/-! DEFINITION. The engine's parameters (00_scope.md R5) and the free values that 10_state.md R48 leaves open. -/

namespace Sys2Proof.Config

/-- MAX_CHUNK: the largest LEN one UPDATE or HASH takes (R5, R82). -/
def maxChunk : Nat := 64

/-- MAX_MESSAGE_BYTES = 2^61 − 1, the largest `S.byte_count` (R5, R205). -/
def maxMessageBytes : Nat := 2 ^ 61 - 1

/-- REG_WINDOW_BYTES: the size of the register window (R5, R34). -/
def windowBytes : Nat := 0x80

/-- FREE VALUE (log entry 3): byte `j` of the Buffer after the `n`-th power-on reset of a run, "any value" (R48, R230). -/
opaque powerOnBuf (n j : Nat) : Byte

/-- FREE VALUE (log entry 3): Word `t` of the schedule after the `n`-th power-on reset of a run, "any value" (R48, R230). -/
opaque powerOnW (n t : Nat) : Word

/-- FREE VALUE (log entry 3): working register `i` after the `n`-th power-on reset of a run, "any value" (R48, R230). -/
opaque powerOnWr (n i : Nat) : Word

end Sys2Proof.Config
end

