-- ==== Sys2Proof/Syntax.lean ====
section
/-! DEFINITION. The five commands of 30_encoding.md R83, one constructor per row of spec/opcode_table.json. -/

namespace Sys2Proof

/-- A command. `len` is the LEN field as a number, 0 to 127 (R82); the chunk operand itself is implicit in DIN. -/
inductive Instr where
  /-- UPDATE len, 44_controller.md R173. -/
  | update (len : Nat)
  /-- FINALIZE, R174. -/
  | finalize
  /-- RESET, R175. -/
  | reset
  /-- WIPE, R176. -/
  | wipe
  /-- HASH len, R177. -/
  | hash (len : Nat)
  deriving DecidableEq, Repr

end Sys2Proof
end

