-- ==== Sys2Proof/WellFormed.lean ====
section
/-! DEFINITION. When a command term stands for a command word: its LEN fits the 7-bit field (30_encoding.md R82). A LEN of 65
to 127 is a well-formed word with an out-of-range operand (R87): it is well formed here, and its meaning raises BAD_LEN. -/

namespace Sys2Proof

/-- LEN is an unsigned 7-bit integer, 0 to 127 (R82). -/
abbrev Instr.WellFormed : Instr → Prop
  | .update len => len ≤ 127
  | .finalize => True
  | .reset => True
  | .wipe => True
  | .hash len => len ≤ 127

/-- The check as a Bool. -/
def Instr.wellFormed : Instr → Bool
  | .update len => decide (len ≤ 127)
  | .finalize => true
  | .reset => true
  | .wipe => true
  | .hash len => decide (len ≤ 127)

end Sys2Proof
end

