-- ==== Sys2Proof/Decode.lean ====
section
/-! DEFINITION. Decoding and encoding a command word (30_encoding.md R80 to R88). `decode` selects the row of R83 or rejects the
word by name, in the order of R84; R84's last check (LEN over 64, BAD_LEN) is made by the meaning of UPDATE and HASH, before
anything else it does (log entry 4). -/

namespace Sys2Proof

/-- Why a word is no command (R84 to R87): each raises ILLEGAL_CMD. -/
inductive DecodeError where
  /-- An RSVD bit (31:15) is set (R86). -/
  | rsvdNonZero
  /-- OPCODE 0x00 or 0x06 to 0xFF (R85). -/
  | reservedOpcode
  /-- FINALIZE, RESET or WIPE with LEN ≠ 0 (R87). -/
  | lenNonZero
  deriving DecidableEq, Repr

/-- OPCODE = c[7:0] (R81). -/
def opcodeField (c : Word) : BitVec 8 := c.extractLsb' 0 8

/-- LEN = c[14:8] (R81). -/
def lenField (c : Word) : BitVec 7 := c.extractLsb' 8 7

/-- RSVD = c[31:15] (R81). -/
def rsvdField (c : Word) : BitVec 17 := c.extractLsb' 15 17

/-- A command that takes no operand: LEN must be 0 (R84, R87). -/
def decodeNoOperand (len : BitVec 7) (i : Instr) : Except DecodeError Instr :=
  if len ≠ 0 then .error .lenNonZero else .ok i

/-- R84's decoding: the command a word stands for, or why it stands for none. -/
def decode (c : Word) : Except DecodeError Instr :=
  let op := opcodeField c
  let len := lenField c
  if rsvdField c ≠ 0 then .error .rsvdNonZero
  else if op = 0x01 then .ok (.update len.toNat)
  else if op = 0x02 then decodeNoOperand len .finalize
  else if op = 0x03 then decodeNoOperand len .reset
  else if op = 0x04 then decodeNoOperand len .wipe
  else if op = 0x05 then .ok (.hash len.toNat)
  else .error .reservedOpcode

/-- A word put together from its fields, RSVD = 0 (R80). A LEN over 127 fits no word (R82) and R89 does not say what a line with one
stands for: its low 7 bits are taken (DESIGN CHOICE, log entry 10). -/
def commandWord (len : Nat) (op : BitVec 8) : Word :=
  0#17 ++ BitVec.ofNat 7 len ++ op

/-- The word of a command (R80, R83). -/
def encode : Instr → Word
  | .update len => commandWord len 0x01
  | .finalize => commandWord 0 0x02
  | .reset => commandWord 0 0x03
  | .wipe => commandWord 0 0x04
  | .hash len => commandWord len 0x05

/-- The match column of a command's row (R83, spec/opcode_table.json). -/
def rowMatch : Instr → Word
  | .update _ => 0x00000001
  | .finalize => 0x00000002
  | .reset => 0x00000003
  | .wipe => 0x00000004
  | .hash _ => 0x00000005

/-- The mask column of a command's row (R83, spec/opcode_table.json). -/
def rowMask : Instr → Word
  | .update _ => 0xFFFF80FF
  | .finalize => 0xFFFFFFFF
  | .reset => 0xFFFFFFFF
  | .wipe => 0xFFFFFFFF
  | .hash _ => 0xFFFF80FF

/-- What the decoder reads from a table word of `nbits` bits: every command is one 32-bit word (R88), and the bits above `nbits`
are 0. -/
def decodeTableWord (nbits w : Nat) : Option Instr :=
  if nbits ≤ 32 then (decode (BitVec.ofNat 32 (w % 2 ^ nbits))).toOption else none

end Sys2Proof
end

