-- ==== Sys2Proof/Machine/Bytes.lean ====
section
/-! DEFINITION. Byte order (00_scope.md R9, 20_memory.md R60): big-endian, most significant byte first, in this one place. -/

namespace Sys2Proof.Machine

/-- be32(b0, b1, b2, b3): b0 in bits 31:24, b3 in bits 7:0 (R9). -/
def be32 (b0 b1 b2 b3 : Byte) : Word := b0 ++ b1 ++ b2 ++ b3

/-- be64(v): byte j is v[63−8j : 56−8j], most significant byte first (R9). -/
def be64 (v : BitVec 64) : Vector Byte 8 := Vector.ofFn fun j => v.extractLsb' (56 - 8 * j.val) 8

/-- Byte k of a Word, most significant first: v[31−8k : 24−8k] (R33, R61, R179). -/
def wordByte (v : Word) (k : Fin 4) : Byte := v.extractLsb' (24 - 8 * k.val) 8

end Sys2Proof.Machine
end

