-- ==== Sys2Proof/Machine/Preprocess.lean ====
section
/-! DEFINITION. MessagePreprocessor: padding and parsing of whole messages (41_preprocess.md R120 to R126). How FINALIZE applies
them to the Buffer (R127) is `padTail` of Machine/Ops.lean. -/

namespace Sys2Proof.Machine

/-- The number of zero bits of `pad` (R120): k = (447 − len) mod 512 for a message of `len` bits. -/
def padZeroBits (len : Nat) : Nat := (447 + (512 - len % 512)) % 512

/-- `pad` as the source defines it on bits (R120): a 1 bit, k zero bits, the bit length as 64 bits, most significant first. -/
def padBits (bits : List Bool) : List Bool :=
  bits ++ [true] ++ List.replicate (padZeroBits bits.length) false ++
    List.ofFn fun j : Fin 64 => (BitVec.ofNat 64 bits.length).getMsbD j

/-- The bits of a byte string, each byte most significant bit first. -/
def bitsOfBytes (m : List Byte) : List Bool := m.flatMap fun b => List.ofFn fun j : Fin 8 => b.getMsbD j

/-- The number of zero bytes of `pad` (R121): z = (55 − len) mod 64. -/
def padZeroBytes (len : Nat) : Nat := (55 + (64 - len % 64)) % 64

/-- The byte form of `pad` (R121): m, 0x80, z zero bytes, be64 of the length in bits. -/
def pad (m : List Byte) : List Byte :=
  m ++ [0x80] ++ List.replicate (padZeroBytes m.length) 0x00 ++ (be64 (BitVec.ofNat 64 (8 * m.length))).toList

/-- Block i of a byte string: p[64·i .. 64·i + 63] (R123). Outside the string there is no block; 0x00 stands there. -/
def blockAt (p : List Byte) (i : Nat) : Block := Vector.ofFn fun j => p.getD (64 * i + j.val) 0x00

/-- The whole 64-byte blocks of a byte string, in input order (R123). -/
def parseBlocks (p : List Byte) : List Block := (List.range (p.length / 64)).map (blockAt p)

/-- The 16 big-endian Words of a block (R124). -/
def parseWords (B : Block) : Vector Word 16 :=
  Vector.ofFn fun i => be32 B[4 * i.val] B[4 * i.val + 1] B[4 * i.val + 2] B[4 * i.val + 3]

end Sys2Proof.Machine
end

