-- ==== Sys2Proof/Machine/Bitwise.lean ====
section
/-! DEFINITION. BitwiseOps: the word primitives of 40_bitwise.md R100 to R110. Pure, total, no flags. -/

namespace Sys2Proof.Machine

/-- Circular right rotation by n mod 32 (R100, 90_conflicts.md C1). -/
def rotr (x : Word) (n : Nat) : Word := (x >>> (n % 32)) ||| (x <<< (32 - n % 32))

/-- Logical right shift, 0 ≤ n ≤ 31; no value is stated for a larger n, which the operand's type excludes (R101, log entry 7). -/
def shr (x : Word) (n : Fin 32) : Word := x >>> n.val

/-- Choose (R102). -/
def ch (x y z : Word) : Word := (x &&& y) ^^^ (~~~x &&& z)

/-- Majority (R103). -/
def maj (x y z : Word) : Word := (x &&& y) ^^^ (x &&& z) ^^^ (y &&& z)

/-- Σ0 (R104). -/
def bigSigma0 (x : Word) : Word := rotr x 2 ^^^ rotr x 13 ^^^ rotr x 22

/-- Σ1 (R105). -/
def bigSigma1 (x : Word) : Word := rotr x 6 ^^^ rotr x 11 ^^^ rotr x 25

/-- σ0 (R106). -/
def smallSigma0 (x : Word) : Word := rotr x 7 ^^^ rotr x 18 ^^^ shr x 3

/-- σ1 (R107). -/
def smallSigma1 (x : Word) : Word := rotr x 17 ^^^ rotr x 19 ^^^ shr x 10

/-- The sum over unbounded integers of any number of Words, mod 2^32 (R108, R110). -/
def addMod32 (ws : List Word) : Word := BitVec.ofNat 32 (ws.map BitVec.toNat).sum

end Sys2Proof.Machine
end

