-- ==== Sys2Proof/Machine/Schedule.lean ====
section
/-! DEFINITION. MessageScheduler: the message-schedule expander (42_schedule.md R140). -/

namespace Sys2Proof.Machine

/-- One step of the recurrence: entry t = 16 + u of the schedule from the entries before it (R140). -/
def expandStep (W : Vector Word 64) (u : Fin 48) : Vector Word 64 :=
  W.set (16 + u.val)
    (addMod32 [smallSigma1 W[14 + u.val], W[9 + u.val], smallSigma0 W[1 + u.val], W[u.val]])

/-- expand(M): entries 0..15 are M, entries 16..63 come from the recurrence in order (R140). -/
def expand (M : Vector Word 16) : Vector Word 64 :=
  (List.finRange 48).foldl expandStep (Vector.ofFn fun t => if h : t.val < 16 then M[t.val] else 0)

end Sys2Proof.Machine
end

