-- ==== Sys2Proof/Machine/State.lean ====
section
/-! DEFINITION. The state of one engine (10_state.md section 1), the host's events, why a step can stop, and the state after
power-on reset (R48). -/

namespace Sys2Proof.Machine

/-- The controller state `S.fsm` (R28). Code 3 is never held, so it has no constructor (log entry 5). -/
inductive Fsm where
  | ready
  | updating
  | finalized
  deriving DecidableEq, Repr

/-- The result of the last command, `S.err` (R29, 60_exceptions.md R200). Codes 4 to 15 are never held (log entry 5). -/
inductive Err where
  | ok
  | invalidState
  | illegalCmd
  | badLen
  deriving DecidableEq, Repr

/-- What the host can do to an engine (20_memory.md R75). `off` is a byte offset from ENGINE_BASE and `width` the access's size
in bytes; only width 4 has a meaning (R62), and the value of a write of another width is not looked at. -/
inductive HostEvent where
  /-- MemRead(off, width), 00_scope.md R11. -/
  | memRead (off width : Nat)
  /-- MemWrite(off, width, value), R11. -/
  | memWrite (off width : Nat) (value : Word)
  /-- The power-on reset, which the host may apply at any time (70_reset_and_hazards.md R231). -/
  | powerOnReset
  deriving DecidableEq, Repr

/-- The state of one engine: the items of R20, then three fields of the model's own, which stand for the host. -/
structure State where
  /-- HashState H[0..7] (R23). -/
  H : Vector Word 8
  /-- The Buffer, 128 bytes (R25). -/
  buf : Vector Byte 128
  /-- The Buffer's fill length (R26). -/
  bufLen : Nat
  /-- The cumulative byte counter, 64-bit unsigned (R27). -/
  byteCount : BitVec 64
  /-- The controller state (R28). -/
  fsm : Fsm
  /-- The last command's result (R29). -/
  err : Err
  /-- The MessageSchedule scratch (R30). -/
  W : Vector Word 64
  /-- The WorkingRegisters a..h (R31). -/
  wr : Vector Word 8
  /-- The data-in window DIN0..15 (R33). -/
  din : Vector Word 16
  /-- MODEL: the host events still to reach the engine, in the order they will (R69, R70; log entry 1). -/
  pending : List HostEvent
  /-- MODEL: the values the host's reads returned so far, oldest first (R241; log entry 6). -/
  reads : List Word
  /-- MODEL: how many power-on resets the run has seen; it indexes the free values of Config (log entry 3). -/
  powerOns : Nat
  deriving DecidableEq, Repr

/-- Why the machine stops with a fault. -/
inductive Fault where
  /-- Raised by every command that starts in a state the hardware can never reach (60_exceptions.md R206). Safe. -/
  | invariantViolated
  deriving DecidableEq, Repr

/-- Why a step is given no meaning. -/
inductive Refusal where
  /-- An instruction not modelled yet (no arm answers so in this model). Safe. -/
  | notModelled (mnemonic : String)
  /-- A host access that is not 32 bits wide, refuse(AccessWidth) (20_memory.md R62). Raised by the window. Safe. -/
  | accessWidth
  /-- A host access with off mod 4 ≠ 0, refuse(Misaligned) (R63). Raised by the window. Safe. -/
  | misaligned
  /-- A host access outside 0x000..0x07F: not this engine's, what it reaches is the platform's (R64). Raised by the window and by
  Platform. Safe. -/
  | outsideWindow
  /-- An Absorb that would carry the byte counter past 2^61 − 1, refuse(MessageTooLong) (60_exceptions.md R205). Raised by UPDATE.
  Safe. -/
  | messageTooLong
  deriving DecidableEq, Repr

/-- What a step answers. -/
abbrev Result := Host.Outcome State Fault Refusal

/-- The state after power-on reset (R48), for every content of the Buffer bytes, the schedule and the working registers, which
that rule leaves at any value. Nothing is pending and nothing has been read. -/
def State.poweredOn (buf : Vector Byte 128) (W : Vector Word 64) (wr : Vector Word 8) : State where
  H := IV
  buf := buf
  bufLen := 0
  byteCount := 0
  fsm := .ready
  err := .ok
  W := W
  wr := wr
  din := Vector.replicate 16 0
  pending := []
  reads := []
  powerOns := 0

/-- The state right after reset (R48). The Buffer bytes, schedule and working registers are zero: DESIGN CHOICE, log entry 2. -/
def State.reset : State :=
  State.poweredOn (Vector.replicate 128 0) (Vector.replicate 64 0) (Vector.replicate 8 0)

end Sys2Proof.Machine
end

