-- ==== Sys2Proof/Machine/Compression.lean ====
section
/-! DEFINITION. CompressionCore: the 64 rounds, the feed-forward, and the engine step that compresses one block
(43_compression.md R150 to R155). -/

namespace Sys2Proof.Machine

/-- One compression round on the working registers (a, b, c, d, e, f, g, h) (R151). -/
def compressionRound (t : Fin 64) (v : Vector Word 8) (Wt : Word) : Vector Word 8 :=
  let T1 := addMod32 [v[7], bigSigma1 v[4], ch v[4] v[5] v[6], K[t], Wt]
  let T2 := addMod32 [bigSigma0 v[0], maj v[0] v[1] v[2]]
  #v[addMod32 [T1, T2], v[0], v[1], v[2], addMod32 [v[3], T1], v[4], v[5], v[6]]

/-- The 64 rounds, t = 0, 1, ..., 63, on a copy of the HashState (R152). -/
def rounds (H : Vector Word 8) (W : Vector Word 64) : Vector Word 8 :=
  (List.finRange 64).foldl (fun v t => compressionRound t v W[t]) H

/-- The feed-forward: H'[i] = addMod32(H[i], (a..h)[i]) (R152). -/
def feedForward (H v : Vector Word 8) : Vector Word 8 := Vector.ofFn fun i => addMod32 [H[i], v[i]]

/-- compressBlock(H, W): the new HashState and the final working registers (R152). -/
def compressBlock (H : Vector Word 8) (W : Vector Word 64) : Vector Word 8 × Vector Word 8 :=
  let v := rounds H W
  (feedForward H v, v)

/-- CompressBytes(B): writes the schedule, the working registers and the HashState (R153). -/
def compressBytes (B : Block) (s : State) : State :=
  let W := expand (parseWords B)
  let r := compressBlock s.H W
  { s with W := W, wr := r.2, H := r.1 }

/-- The HashState after a sequence of blocks, each folded in once and in order (R154, R155). -/
def hashBlocks (H : Vector Word 8) (blocks : List Block) : Vector Word 8 :=
  blocks.foldl (fun h B => (compressBlock h (expand (parseWords B))).1) H

/-- The digest of a whole message as 8 Words: the fold over every block of parseBlocks(pad(m)) from IV (R155). -/
def sha256 (m : List Byte) : Vector Word 8 := hashBlocks IV (parseBlocks (pad m))

/-- The digest as 32 bytes: d[4i + k] = H[i][31 − 8k : 24 − 8k] (44_controller.md R179). -/
def digestBytes (H : Vector Word 8) : Vector Byte 32 :=
  Vector.ofFn fun n => wordByte H[n.val / 4] ⟨n.val % 4, by omega⟩

end Sys2Proof.Machine
end

