-- ==== Sys2Proof/Machine/Flags.lean ====
section
/-! DEFINITION. The engine's only flags: the fields of STATUS (10_state.md R37). The datapath has none (40_bitwise.md R110). -/

namespace Sys2Proof.Machine

/-- The STATE code: 0 READY, 1 UPDATING, 2 FINALIZED (R28, R37). -/
def Fsm.code : Fsm → BitVec 2
  | .ready => 0
  | .updating => 1
  | .finalized => 2

/-- The ERR code: 0 OK, 1 INVALID_STATE, 2 ILLEGAL_CMD, 3 BAD_LEN (R29, 60_exceptions.md R200). -/
def Err.code : Err → BitVec 4
  | .ok => 0
  | .invalidState => 1
  | .illegalCmd => 2
  | .badLen => 3

/-- STATUS: STATE in bits 1:0, ERR in 7:4, BUF_LEN in 14:8, every other bit 0 (R37). -/
def statusWord (s : State) : Word :=
  s.fsm.code.zeroExtend 32 ||| (s.err.code.zeroExtend 32 <<< 4) ||| ((BitVec.ofNat 7 s.bufLen).zeroExtend 32 <<< 8)

end Sys2Proof.Machine
end

