-- ==== Sys2Proof/Machine/Operands.lean ====
section
/-! DEFINITION. The operands of a command: LEN, and the chunk it takes from the DIN window (30_encoding.md R82, 10_state.md R33). -/

namespace Sys2Proof.Machine

/-- LEN is a legal operand of UPDATE and HASH: 0 to 64 (R82); otherwise the command raises BAD_LEN (R87). -/
def lenLegal (len : Nat) : Bool := decide (len ≤ Config.maxChunk)

/-- din_byte(j): bits 31 − 8·(j mod 4) : 24 − 8·(j mod 4) of DIN(j div 4) (R33). -/
def dinByte (din : Vector Word 16) (j : Fin 64) : Byte := wordByte din[j.val / 4] ⟨j.val % 4, by omega⟩

/-- The chunk of LEN bytes: din_byte(0) .. din_byte(LEN−1), in that order (R82). -/
def chunk (din : Vector Word 16) (len : Nat) : List Byte := (List.ofFn fun j : Fin 64 => dinByte din j).take len

end Sys2Proof.Machine
end

