-- ==== Sys2Proof/Machine/Ops.lean ====
section
/-! DEFINITION. The shared operations the commands are made of: raising an error, the check at a command start, Init, Absorb,
PadTail and the power-on reset. -/

namespace Sys2Proof.Machine

/-- `raise E`: the command ends with `S.err` set and no other state changed (00_scope.md R11, 60_exceptions.md R201). The engine
has no trap entry and no trap return (R208, R209): this is all that an exceptional command does. -/
def raiseError (e : Err) (s : State) : Result := .next { s with err := e }

/-- What the model checks at each command start (60_exceptions.md R206; log entry 8): the Buffer holds less than one block
(10_state.md R44), the counter is in its domain (R27), and the fill length is the counter mod 64, or 0 while FINALIZED (R45). -/
def commandStartOk (s : State) : Bool :=
  decide (s.bufLen ≤ 63) && decide (s.byteCount.toNat ≤ Config.maxMessageBytes) &&
    decide (s.bufLen = if s.fsm = .finalized then 0 else s.byteCount.toNat % 64)

/-- Runs a command, or faults where an internal invariant does not hold at its start (R206). -/
def atCommandStart (s : State) (command : State → Result) : Result :=
  if commandStartOk s then command s else .fault .invariantViolated

/-- Goes on with `k` from a next state; a fault or a refusal stays one. -/
def andThen (r : Result) (k : State → Result) : Result :=
  match r with
  | .next s => k s
  | .fault e => .fault e
  | .refused e => .refused e

/-- Init(): a fresh Ready state; Buffer bytes, schedule, working registers, DIN and ERR stay (44_controller.md R171). -/
def init (s : State) : State := { s with H := IV, bufLen := 0, byteCount := 0, fsm := .ready }

/-- Ends a command that completed: `S.err <- OK` (R170). -/
def finishOk (s : State) : State := { s with err := .ok }

/-- Block q of the Buffer: S.buf[64·q .. 64·q + 63]. -/
def bufBlock (buf : Vector Byte 128) (q : Fin 2) : Block := Vector.ofFn fun j => buf[64 * q.val + j.val]

/-- The Buffer with the chunk appended: `S.buf[S.buf_len + j] <- din_byte(j)` for j in 0..n−1 (R172). -/
def appendedBuffer (n : Nat) (s : State) : Vector Byte 128 :=
  Vector.ofFn fun k =>
    if h : s.bufLen ≤ k.val ∧ k.val < s.bufLen + n ∧ k.val - s.bufLen < 64 then dinByte s.din ⟨k.val - s.bufLen, h.2.2⟩
    else s.buf[k]

/-- The first part of Absorb(n): the counter and the fill length grow by n, and the chunk is appended (R172). -/
def appendChunk (n : Nat) (s : State) : State :=
  { s with byteCount := s.byteCount + BitVec.ofNat 64 n, buf := appendedBuffer n s, bufLen := s.bufLen + n }

/-- The Buffer after a block is removed from its front: bytes 64..127 are copied to 0..63 and keep their values (R172). -/
def shiftedBuffer (buf : Vector Byte 128) : Vector Byte 128 :=
  Vector.ofFn fun k => if h : k.val < 64 then buf[64 + k.val] else buf[k]

/-- The body of Absorb's loop: compress Buffer bytes 0..63, remove them, and take 64 off the fill length (R172). -/
def drainBlock (s : State) : State :=
  let t := compressBytes (bufBlock s.buf 0) s
  { t with buf := shiftedBuffer t.buf, bufLen := t.bufLen - 64 }

/-- Absorb's loop, `while S.buf_len >= 64`, with a bound on its passes; each pass takes 64 off the fill length (R172). -/
def drainLoop : Nat → State → State
  | 0, s => s
  | n + 1, s => if 64 ≤ s.bufLen then drainLoop n (drainBlock s) else s

/-- Absorb(n): refused where the counter would pass 2^61 − 1, before any state changes; otherwise append the chunk and compress
every full block (R172, 60_exceptions.md R205). -/
def absorb (n : Nat) (s : State) : Result :=
  if Config.maxMessageBytes < s.byteCount.toNat + n then .refused .messageTooLong
  else
    let t := appendChunk n s
    .next (drainLoop (t.bufLen / 64) t)

/-- The number of tail blocks FINALIZE compresses for r buffered bytes (41_preprocess.md R122, R127). -/
def tailBlocks (r : Nat) : Nat := if r ≤ 55 then 1 else 2

/-- The Buffer after PadTail's writes: the r buffered bytes, 0x80, zeros, be64(8·L) in the last 8 bytes of the last tail block;
bytes past the tail keep their values (R127). -/
def paddedBuffer (s : State) : Vector Byte 128 :=
  let r := s.bufLen
  let size := 64 * tailBlocks r
  Vector.ofFn fun k =>
    if k.val < r then s.buf[k]
    else if k.val = r then 0x80
    else if k.val < size - 8 then 0x00
    else if h : k.val < size ∧ k.val - (size - 8) < 8 then (be64 (8 * s.byteCount))[k.val - (size - 8)]
    else s.buf[k]

/-- PadTail(): pads the Buffer and compresses its one or two tail blocks in order (R127). -/
def padTail (s : State) : State :=
  let s0 := { s with buf := paddedBuffer s }
  let s1 := compressBytes (bufBlock s0.buf 0) s0
  if tailBlocks s.bufLen = 1 then s1 else compressBytes (bufBlock s1.buf 1) s1

/-- The last lines of FINALIZE and HASH: the Buffer is empty, the controller FINALIZED, ERR OK (44_controller.md R174, R177). -/
def enterFinalized (s : State) : State := { s with bufLen := 0, fsm := .finalized, err := .ok }

/-- The zeroing part of WIPE: Buffer, schedule, working registers and DIN (R176). -/
def clearStorage (s : State) : State :=
  { s with
    buf := Vector.replicate 128 0
    W := Vector.replicate 64 0
    wr := Vector.replicate 8 0
    din := Vector.replicate 16 0 }

/-- The power-on reset applied in a run: it replaces the whole engine state by that of R48, with FREE VALUES for the Buffer bytes,
the schedule and the working registers; what the host has still to send and has read is not the engine's (70_reset_and_hazards.md
R230, R231; log entry 3). The free values are indexed by `powerOns` alone, not by engine: DESIGN CHOICE, log entry 3, two engines
with equal counts get equal hidden storage, which R6, R48 and R214 leave open. -/
def powerOn (s : State) : State :=
  { State.poweredOn (Vector.ofFn fun j => Config.powerOnBuf s.powerOns j) (Vector.ofFn fun t => Config.powerOnW s.powerOns t)
      (Vector.ofFn fun i => Config.powerOnWr s.powerOns i) with
    pending := s.pending
    reads := s.reads
    powerOns := s.powerOns + 1 }

end Sys2Proof.Machine
end

