-- ==== Sys2Proof/Machine/Controller.lean ====
section
/-! DEFINITION. StreamingHasher: the meaning of each command (44_controller.md R173 to R177). Errors in the order of
60_exceptions.md R204. -/

namespace Sys2Proof.Machine

/-- UPDATE len (R173). -/
def execUpdate (len : Nat) (s : State) : Result :=
  atCommandStart s fun s =>
    if lenLegal len = false then raiseError .badLen s
    else if s.fsm = .finalized then raiseError .invalidState s
    else andThen (absorb len s) fun t => .next (finishOk { t with fsm := .updating })

/-- FINALIZE (R174): idempotent once FINALIZED. -/
def execFinalize (s : State) : Result :=
  atCommandStart s fun s =>
    if s.fsm = .finalized then .next (finishOk s) else .next (enterFinalized (padTail s))

/-- RESET (R175). -/
def execReset (s : State) : Result := atCommandStart s fun s => .next (finishOk (init s))

/-- WIPE (R176). -/
def execWipe (s : State) : Result := atCommandStart s fun s => .next (finishOk (init (clearStorage s)))

/-- HASH len (R177): allowed in every state; BAD_LEN leaves the state as it was. -/
def execHash (len : Nat) (s : State) : Result :=
  atCommandStart s fun s =>
    if lenLegal len = false then raiseError .badLen s
    else andThen (absorb len (init s)) fun t => .next (enterFinalized (padTail t))

/-- A word that decodes to no command: ILLEGAL_CMD, nothing else changes (30_encoding.md R84 to R87, 44_controller.md R170). -/
def rejectCommand (s : State) : Result := atCommandStart s (raiseError .illegalCmd)

end Sys2Proof.Machine
end

