-- ==== Sys2Proof/Machine/Dispatch.lean ====
section
/-! DEFINITION. One arm per command. -/

namespace Sys2Proof.Machine

def exec (i : Instr) (s : State) : Host.Outcome State Fault Refusal :=
  match i with
  | .update len => Sys2Proof.Machine.execUpdate len s
  | .finalize => Sys2Proof.Machine.execFinalize s
  | .reset => Sys2Proof.Machine.execReset s
  | .wipe => Sys2Proof.Machine.execWipe s
  | .hash len => Sys2Proof.Machine.execHash len s

end Sys2Proof.Machine
end

