-- ==== Sys2Proof/Machine/Window.lean ====
section
/-! DEFINITION. The register window (10_state.md R34 to R41) and what each host event does (20_memory.md R62 to R66). -/

namespace Sys2Proof.Machine

/-- The registers of the window (R34). -/
inductive Reg where
  | cmd
  | status
  | byteCountLo
  | byteCountHi
  | reserved (i : Fin 4)
  | digest (i : Fin 8)
  | din (j : Fin 16)
  deriving DecidableEq, Repr

/-- A register's byte offset from ENGINE_BASE (R34). -/
def Reg.offset : Reg → Nat
  | .cmd => 0x000
  | .status => 0x004
  | .byteCountLo => 0x008
  | .byteCountHi => 0x00C
  | .reserved i => 0x010 + 4 * i.val
  | .digest i => 0x020 + 4 * i.val
  | .din j => 0x040 + 4 * j.val

/-- The register at each of the window's 32 Words (R34). -/
def regAt (k : Fin 32) : Reg :=
  if k.val = 0 then .cmd
  else if k.val = 1 then .status
  else if k.val = 2 then .byteCountLo
  else if k.val = 3 then .byteCountHi
  else if h : k.val < 8 then .reserved ⟨k.val - 4, by omega⟩
  else if h : k.val < 16 then .digest ⟨k.val - 8, by omega⟩
  else .din ⟨k.val - 16, by omega⟩

/-- The register an access reaches, or why it reaches none: an offset outside the window is not this engine's (R64), then only
32-bit accesses (R62), then only aligned ones (R63). All three are refusals; their order is log entry 9. -/
def accessTarget (off width : Nat) : Except Refusal Reg :=
  if h : off < Config.windowBytes then
    if width ≠ 4 then .error .accessWidth
    else if off % 4 ≠ 0 then .error .misaligned
    else .ok (regAt ⟨off / 4, by unfold Config.windowBytes at h; omega⟩)
  else .error .outsideWindow

/-- What a read of a register returns; no read has an effect (R36 to R41, R66). -/
def readReg (r : Reg) (s : State) : Word :=
  match r with
  | .cmd => 0
  | .status => statusWord s
  | .byteCountLo => s.byteCount.extractLsb' 0 32
  | .byteCountHi => s.byteCount.extractLsb' 32 32
  | .reserved _ => 0
  | .digest i => if s.fsm = .finalized then s.H[i] else 0
  | .din j => s.din[j]

/-- A word written to CMD: decode it and run the command, or raise ILLEGAL_CMD (44_controller.md R170, R84). -/
def runCommand (c : Word) (s : State) : Result :=
  match decode c with
  | .ok i => exec i s
  | .error _ => rejectCommand s

/-- What a write of a register does: CMD runs a command, DINj stores, every other register ignores it (R35, R36, R40, R41, R66). -/
def writeReg (r : Reg) (v : Word) (s : State) : Result :=
  match r with
  | .cmd => runCommand v s
  | .status => .next s
  | .byteCountLo => .next s
  | .byteCountHi => .next s
  | .reserved _ => .next s
  | .digest _ => .next s
  | .din j => .next { s with din := s.din.set j v }

/-- What one host event does (R75). A read's value goes to the host, recorded in `reads` (70_reset_and_hazards.md R241). -/
def perform (e : HostEvent) (s : State) : Result :=
  match e with
  | .memRead off width =>
    match accessTarget off width with
    | .ok r => .next { s with reads := s.reads ++ [readReg r s] }
    | .error why => .refused why
  | .memWrite off width v =>
    match accessTarget off width with
    | .ok r => writeReg r v s
    | .error why => .refused why
  | .powerOnReset => .next (powerOn s)

/-- The host's write of a command word to CMD (R36). -/
def commandWrite (c : Word) : HostEvent := .memWrite 0x000 4 c

end Sys2Proof.Machine
end

