-- ==== Sys2Proof/Machine/Step.lean ====
section
/-! DEFINITION. One step: the first host event that has not reached the engine yet takes effect, whole (20_memory.md R65, R69). -/

namespace Sys2Proof.Machine

/-- One step. With no event pending the engine holds its state and waits (10_state.md R21, 60_exceptions.md R216). -/
def step (s : State) : Host.Outcome State Fault Refusal :=
  match s.pending with
  | [] => .next s
  | e :: rest => perform e { s with pending := rest }

/-- The state in which the host's next access writes the table word `w` of `nbits` bits to CMD (R36; log entry 1). -/
def State.withFetchWord (s : State) (nbits w : Nat) : State :=
  { s with pending := commandWrite (BitVec.ofNat 32 (w % 2 ^ nbits)) :: s.pending }

end Sys2Proof.Machine
end

