-- ==== Sys2Proof/Machine/HostProgram.lean ====
section
/-! DEFINITION. Host programs and the pseudo-instructions of 30_encoding.md R89 to R93: what each line stands for as host accesses,
and the text it is written as. -/

namespace Sys2Proof.Machine

/-- A line of a host program (R89 to R93). -/
inductive Line where
  /-- `WR <reg>, <value>` (R89). -/
  | wr (r : Reg) (v : Word)
  /-- `RD <reg>` (R89). -/
  | rd (r : Reg)
  /-- `WR 0x0NN, <value>`: a register given by its offset (R89). -/
  | wrAt (off : Nat) (v : Word)
  /-- `RD 0x0NN` (R89). -/
  | rdAt (off : Nat)
  /-- A command mnemonic: one CMD write (R89), of the low 7 bits of LEN where LEN is over 127 (log entry 10). -/
  | command (i : Instr)
  /-- `LOAD "<bytes>"`, at most 64 bytes (R90). -/
  | load (bytes : List Byte)
  /-- `ABSORB "<bytes>"`, any length (R91). -/
  | absorb (bytes : List Byte)
  /-- `READDIGEST` (R92). -/
  | readDigest
  /-- `SHA256 "<bytes>"`, any length (R93). -/
  | sha256 (bytes : List Byte)
  deriving DecidableEq, Repr

/-- MemWrite(offset(r), 4, v) (R89). -/
def writeTo (r : Reg) (v : Word) : HostEvent := .memWrite r.offset 4 v

/-- MemRead(offset(r), 4) (R89). -/
def readFrom (r : Reg) : HostEvent := .memRead r.offset 4

/-- Word j of a byte string loaded into DIN, bytes past its end taken as 0x00 (R90). -/
def loadWord (bytes : List Byte) (j : Nat) : Word :=
  be32 (bytes.getD (4 * j) 0) (bytes.getD (4 * j + 1) 0) (bytes.getD (4 * j + 2) 0) (bytes.getD (4 * j + 3) 0)

/-- LOAD: writes DIN0 .. DIN(ceil(len/4) − 1) (R90). DINj lies at 0x040 + 4·j. -/
def loadEvents (bytes : List Byte) : List HostEvent :=
  (List.range ((bytes.length + 3) / 4)).map fun j => .memWrite (0x040 + 4 * j) 4 (loadWord bytes j)

/-- The consecutive pieces of 64 bytes of a byte string, the last may be shorter; an empty string gives one empty piece (R91). -/
def pieces (bytes : List Byte) : List (List Byte) :=
  (List.range (max 1 ((bytes.length + 63) / 64))).map fun i => (bytes.drop (64 * i)).take 64

/-- A chunk loaded and submitted: LOAD p, UPDATE len(p) (R91). -/
def submitEvents (p : List Byte) : List HostEvent := loadEvents p ++ [commandWrite (encode (.update p.length))]

/-- ABSORB (R91). -/
def absorbEvents (bytes : List Byte) : List HostEvent := (pieces bytes).flatMap submitEvents

/-- READDIGEST: RD DIGEST0 .. RD DIGEST7 in order (R92). -/
def readDigestEvents : List HostEvent := (List.finRange 8).map fun i => readFrom (.digest i)

/-- The host accesses a line stands for (R89 to R93). -/
def Line.events : Line → List HostEvent
  | .wr r v => [writeTo r v]
  | .rd r => [readFrom r]
  | .wrAt off v => [.memWrite off 4 v]
  | .rdAt off => [.memRead off 4]
  | .command i => [commandWrite (encode i)]
  | .load bytes => loadEvents bytes
  | .absorb bytes => absorbEvents bytes
  | .readDigest => readDigestEvents
  | .sha256 bytes =>
    [commandWrite (encode .reset)] ++ absorbEvents bytes ++ [commandWrite (encode .finalize)] ++ readDigestEvents

/-- `digits` hexadecimal digits of n, most significant first (00_scope.md R8). -/
def hexDigits : Nat → Nat → String
  | 0, _ => ""
  | d + 1, n => hexDigits d (n / 16) ++ String.singleton (Nat.digitChar (n % 16)).toUpper

/-- A register's name (10_state.md R34), a reserved one by its offset (R89). -/
def Reg.name : Reg → String
  | .cmd => "CMD"
  | .status => "STATUS"
  | .byteCountLo => "BYTE_COUNT_LO"
  | .byteCountHi => "BYTE_COUNT_HI"
  | .reserved i => "0x" ++ hexDigits 3 (0x010 + 4 * i.val)
  | .digest i => "DIGEST" ++ toString i.val
  | .din j => "DIN" ++ toString j.val

/-- A command's text: the mnemonic, LEN in decimal (R89). -/
def commandText : Instr → String
  | .update len => "UPDATE " ++ toString len
  | .finalize => "FINALIZE"
  | .reset => "RESET"
  | .wipe => "WIPE"
  | .hash len => "HASH " ++ toString len

/-- A byte list, one of the two ways R90 writes the bytes of a pseudo-instruction. -/
def bytesText (bytes : List Byte) : String := " ".intercalate (bytes.map fun b => "0x" ++ hexDigits 2 b.toNat)

/-- A line's text (R89 to R93). -/
def Line.text : Line → String
  | .wr r v => "WR " ++ r.name ++ ", 0x" ++ hexDigits 8 v.toNat
  | .rd r => "RD " ++ r.name
  | .wrAt off v => "WR 0x" ++ hexDigits 3 off ++ ", 0x" ++ hexDigits 8 v.toNat
  | .rdAt off => "RD 0x" ++ hexDigits 3 off
  | .command i => commandText i
  | .load bytes => "LOAD " ++ bytesText bytes
  | .absorb bytes => "ABSORB " ++ bytesText bytes
  | .readDigest => "READDIGEST"
  | .sha256 bytes => "SHA256 " ++ bytesText bytes

end Sys2Proof.Machine
end

