-- ==== Sys2Proof/Machine/Platform.lean ====
section
/-! DEFINITION. A platform of N_ENGINES independent engines, told apart by their base addresses (60_exceptions.md R214,
20_memory.md R67). ENGINE_BASE and N_ENGINES are OPEN (00_scope.md R5), so both are data of the platform: any list of instances. -/

namespace Sys2Proof.Machine

/-- One engine at its ENGINE_BASE. -/
structure Instance where
  base : Nat
  engine : State
  deriving DecidableEq, Repr

/-- The engines of a platform (R214): N_ENGINES is the list's length. -/
abbrev Platform := List Instance

/-- What R5, R67 and R214 ask of a platform: at least one engine, every base aligned to 0x80, no two bases equal. -/
def Platform.wf (p : Platform) : Bool :=
  !p.isEmpty && p.all (fun i => i.base % Config.windowBytes == 0) && decide (p.map Instance.base).Nodup

/-- An access by address in the host's address space, or the power-on reset of the engine at a base. -/
inductive BusEvent where
  | read (addr width : Nat)
  | write (addr width : Nat) (value : Word)
  | powerOn (base : Nat)
  deriving DecidableEq, Repr

/-- The address by which a bus event finds its engine. -/
def BusEvent.addr : BusEvent → Nat
  | .read a _ => a
  | .write a _ _ => a
  | .powerOn b => b

/-- The event as the engine at `base` receives it: its offset is counted from ENGINE_BASE (10_state.md R34). -/
def BusEvent.atBase (base : Nat) : BusEvent → HostEvent
  | .read a width => .memRead (a - base) width
  | .write a width v => .memWrite (a - base) width v
  | .powerOn _ => .powerOnReset

/-- The address lies in the instance's register window. -/
def Instance.owns (i : Instance) (addr : Nat) : Bool :=
  decide (i.base ≤ addr) && decide (addr < i.base + Config.windowBytes)

/-- A bus event on a platform: the engine whose window holds the address performs it, every other engine is left as it was; an
address in no window is not an engine's access (R64, R214). -/
def Platform.perform (e : BusEvent) : Platform → Host.Outcome Platform Fault Refusal
  | [] => .refused .outsideWindow
  | i :: rest =>
    if i.owns e.addr then
      match Sys2Proof.Machine.perform (e.atBase i.base) i.engine with
      | .next t => .next ({ i with engine := t } :: rest)
      | .fault f => .fault f
      | .refused r => .refused r
    else
      match Platform.perform e rest with
      | .next rest' => .next (i :: rest')
      | .fault f => .fault f
      | .refused r => .refused r

end Sys2Proof.Machine
end

