-- ==== Sys2Proof/Safety.lean ====
section
/-! DEFINITION. The terms statements are made in: the invariant of an engine between commands, what an engine holds of a message,
which states a host cannot tell apart, and the observation of a run. -/

namespace Sys2Proof.Machine

/-- What holds between commands (10_state.md R44, R45; the bound of R27, R205). -/
abbrev State.Inv (s : State) : Prop :=
  s.bufLen ≤ 63 ∧ s.byteCount.toNat ≤ Config.maxMessageBytes ∧
    (s.fsm ≠ .finalized → s.bufLen = s.byteCount.toNat % 64) ∧ (s.fsm = .finalized → s.bufLen = 0)

/-- The engine is absorbing the message m: every byte of m has been submitted since the last initialisation, each full block is
folded into HashState, the rest is in the Buffer (44_controller.md R180's ground: "the Buffer always holds the last
`S.byte_count mod 64` bytes of the stream and each full block is compressed once in order"). -/
def State.Absorbing (m : List Byte) (s : State) : Prop :=
  s.fsm ≠ .finalized ∧ m.length ≤ Config.maxMessageBytes ∧ s.byteCount.toNat = m.length ∧ s.bufLen = m.length % 64 ∧
    s.H = hashBlocks IV (parseBlocks m) ∧
    ∀ (k : Nat) (h : k < 128), k < s.bufLen → s.buf[k] = m.getD (64 * (m.length / 64) + k) 0

/-- The states s and t hold the same in everything a rule can read later: they may differ only in Buffer bytes at or past the fill
length, in the schedule and in the working registers (10_state.md R43). -/
def State.SameLive (s t : State) : Prop :=
  s.H = t.H ∧ s.bufLen = t.bufLen ∧ (∀ (k : Nat) (h : k < 128), k < s.bufLen → s.buf[k] = t.buf[k]) ∧
    s.byteCount = t.byteCount ∧ s.fsm = t.fsm ∧ s.err = t.err ∧ s.din = t.din ∧ s.pending = t.pending ∧
    s.reads = t.reads ∧ s.powerOns = t.powerOns

/-- Two outcomes agree: next states related by `R`, or the same fault, or the same refusal. -/
def Result.Agree (R : State → State → Prop) : Result → Result → Prop
  | .next s, .next t => R s t
  | .fault a, .fault b => a = b
  | .refused a, .refused b => a = b
  | _, _ => False

/-- What a host program's run shows at its end: the values its reads returned and the visible registers
(70_reset_and_hazards.md R241). -/
structure Observation where
  reads : List Word
  registers : Vector Word 32
  deriving DecidableEq, Repr

/-- The observation of a state: its reads, and the 32 Words of the window as a read of each would return them (R241). -/
def State.observe (s : State) : Observation where
  reads := s.reads
  registers := Vector.ofFn fun k => readReg (regAt k) s

/-- The observation of a run: a run that made a refused access or command has none (R241). -/
def observationOf : Result → Option Observation
  | .next s => some s.observe
  | .fault _ => none
  | .refused _ => none

/-- A host event that keeps the host's duties of 20_memory.md R75: an aligned 32-bit access inside the window, or a reset. -/
def HostEvent.legal : HostEvent → Bool
  | .memRead off width => decide (off < Config.windowBytes) && width == 4 && off % 4 == 0
  | .memWrite off width _ => decide (off < Config.windowBytes) && width == 4 && off % 4 == 0
  | .powerOnReset => true

/-- A run of the whole of a state's pending events: one step for each (R241: a run ends after its last access). -/
def runPending (s : State) : Result := Host.Core.run Sys2Proof.core s.pending.length s

end Sys2Proof.Machine
end

