-- ==== Sys2Proof/Certificates/Slice0/Obligations.lean ====
section
/-! DEFINITION. The statements for the provers. Each one's docstring names the rules of spec/ it formalises. The premise
`s.Inv` is what a command checks at its start (60_exceptions.md R206; 10_state.md R44, R45, R27);
`EveryStepKeepsTheInvariant` states that it holds along every run. -/

open Sys2Proof Sys2Proof.Machine

/-- Decoding an encoded command gives it back (30_encoding.md sections 1 to 3). -/
def Obligations.DecodeOfEncodeIsTheCommand : Prop :=
  ∀ i : Instr, i.WellFormed → decode (encode i) = .ok i

/-- Each command word has one meaning: encoding what a word decodes to gives the word back (30_encoding.md sections 1 to 5). -/
def Obligations.EncodeOfDecodedWordIsTheWord : Prop :=
  ∀ (c : Word) (i : Instr), decode c = .ok i → i.WellFormed ∧ encode i = c

/-- A word selects the row of the opcode map whose match and mask it meets; every other word is reserved (R83, R81). -/
def Obligations.WordSelectsTheRowItMatches : Prop :=
  ∀ c : Word,
    (c &&& 0xFFFF80FF = 0x00000001 → decode c = .ok (.update (c.toNat / 2 ^ 8 % 2 ^ 7))) ∧
    (c &&& 0xFFFFFFFF = 0x00000002 → decode c = .ok .finalize) ∧
    (c &&& 0xFFFFFFFF = 0x00000003 → decode c = .ok .reset) ∧
    (c &&& 0xFFFFFFFF = 0x00000004 → decode c = .ok .wipe) ∧
    (c &&& 0xFFFF80FF = 0x00000005 → decode c = .ok (.hash (c.toNat / 2 ^ 8 % 2 ^ 7))) ∧
    (c &&& 0xFFFF80FF ≠ 0x00000001 → c ≠ 0x00000002 → c ≠ 0x00000003 → c ≠ 0x00000004 → c &&& 0xFFFF80FF ≠ 0x00000005 →
      ∃ e, decode c = .error e) ∧
    (opcodeField c).toNat = c.toNat % 2 ^ 8 ∧ (lenField c).toNat = c.toNat / 2 ^ 8 % 2 ^ 7 ∧
    (rsvdField c).toNat = c.toNat / 2 ^ 15

/-- A few command words, written out from the encoding table, decode to their commands (30_encoding.md section 3, 95_test_vectors.md section 2.6). -/
def Obligations.CommandWordsDecodeAsWritten : Prop :=
  decode 0x00000301 = .ok (.update 3) ∧ decode 0x00004001 = .ok (.update 64) ∧ decode 0x00000002 = .ok .finalize ∧
    decode 0x00000003 = .ok .reset ∧ decode 0x00000004 = .ok .wipe ∧ decode 0x00004105 = .ok (.hash 65) ∧
    decode 0x00000000 = .error .reservedOpcode ∧ decode 0x00008001 = .error .rsvdNonZero

/-- A step whose next event writes a command word to CMD runs the command that word decodes to (44_controller.md section 1, 10_state.md section 4). -/
def Obligations.StepRunsTheDecodedCommand : Prop :=
  ∀ (s : State) (c : Word) (rest : List HostEvent) (i : Instr), s.pending = .memWrite 0x000 4 c :: rest →
    decode c = .ok i → step s = exec i { s with pending := rest }

/-- With no host event pending a step leaves the state as it is (the model's form of waiting, log entry 1) (60_exceptions.md section 6, 10_state.md section 2). -/
def Obligations.EngineWithoutEventHoldsItsState : Prop :=
  ∀ s : State, s.pending = [] → step s = .next s

/-- withFetchWord makes the next step run exactly the given word (the model's choices, log entries 1 and 11) (30_encoding.md section 1, 44_controller.md section 1). -/
def Obligations.FetchedTableWordRuns : Prop :=
  ∀ (s : State) (w : Nat) (i : Instr), decodeTableWord 32 w = some i → step (s.withFetchWord 32 w) = exec i s

/-- Which error a written word reports, and that only ERR changes (R84, R85, R86, R87, R201, R204). -/
def Obligations.CommandErrorsInPriorityOrder : Prop :=
  ∀ (s : State) (c : Word) (rest : List HostEvent), s.pending = .memWrite 0x000 4 c :: rest → s.Inv →
    let s0 : State := { s with pending := rest }
    let op := c.toNat % 2 ^ 8
    let len := c.toNat / 2 ^ 8 % 2 ^ 7
    let rsvd := c.toNat / 2 ^ 15
    (rsvd ≠ 0 → step s = .next { s0 with err := .illegalCmd }) ∧
    (rsvd = 0 → op = 0 ∨ 6 ≤ op → step s = .next { s0 with err := .illegalCmd }) ∧
    (rsvd = 0 → op = 2 ∨ op = 3 ∨ op = 4 → len ≠ 0 → step s = .next { s0 with err := .illegalCmd }) ∧
    (rsvd = 0 → op = 1 ∨ op = 5 → 64 < len → step s = .next { s0 with err := .badLen }) ∧
    (rsvd = 0 → op = 1 → len ≤ 64 → s.fsm = .finalized → step s = .next { s0 with err := .invalidState }) ∧
    (rsvd = 0 → op = 1 → len ≤ 64 → s.fsm ≠ .finalized → Config.maxMessageBytes < s.byteCount.toNat + len →
      step s = .refused .messageTooLong) ∧
    (rsvd = 0 → op = 1 → len ≤ 64 → step s = exec (.update len) s0) ∧
    (rsvd = 0 → op = 2 → len = 0 → step s = exec .finalize s0) ∧
    (rsvd = 0 → op = 3 → len = 0 → step s = exec .reset s0) ∧
    (rsvd = 0 → op = 4 → len = 0 → step s = exec .wipe s0) ∧
    (rsvd = 0 → op = 5 → len ≤ 64 → step s = exec (.hash len) s0)

/-- UPDATE and HASH with LEN over 64 set ERR = BAD_LEN and nothing else, in every controller state (LEN over 127: the model's choice, log entry 10) (30_encoding.md sections 2 and 4, 60_exceptions.md section 1). -/
def Obligations.OverLengthOperandRaisesBadLen : Prop :=
  ∀ (s : State) (len : Nat), s.Inv → 64 < len →
    exec (.update len) s = .next { s with err := .badLen } ∧ exec (.hash len) s = .next { s with err := .badLen }

/-- An UPDATE that would carry the byte counter past 2^61 - 1 is refused; UPDATE 0 never is; HASH never is (R205). -/
def Obligations.MessagePastDomainLimitIsRefused : Prop :=
  ∀ (s : State) (len : Nat), s.Inv → len ≤ 64 →
    (s.fsm ≠ .finalized →
      (exec (.update len) s = .refused .messageTooLong ↔ 2 ^ 61 - 1 < s.byteCount.toNat + len)) ∧
    exec (.hash len) s ≠ .refused .messageTooLong

/-- A command that starts in a state that breaks State.Inv faults (R206 names no full list of invariants: the model's check, log entry 8) (60_exceptions.md section 3). -/
def Obligations.CommandInViolatedStateFaults : Prop :=
  ∀ s : State, 64 ≤ s.bufLen ∨ Config.maxMessageBytes < s.byteCount.toNat ∨
      (s.fsm ≠ .finalized ∧ s.bufLen ≠ s.byteCount.toNat % 64) ∨ (s.fsm = .finalized ∧ s.bufLen ≠ 0) →
    (∀ i : Instr, exec i s = .fault .invariantViolated) ∧
    (∀ (c : Word) (e : DecodeError) (rest : List HostEvent), decode c = .error e → s.pending = .memWrite 0x000 4 c :: rest →
      step s = .fault .invariantViolated)

/-- ERR is not sticky: every command word writes it, whatever it held before, and nothing else does but the power-on reset (60_exceptions.md section 1). -/
def Obligations.EveryCommandOverwritesErr : Prop :=
  (∀ (i : Instr) (s : State) (a : Err), exec i { s with err := a } = exec i s) ∧
    (∀ (c : Word) (e : DecodeError) (s : State) (a : Err), decode c = .error e →
      perform (commandWrite c) { s with err := a } = perform (commandWrite c) s) ∧
    (∀ (s t : State) (e : HostEvent) (rest : List HostEvent), s.pending = e :: rest → step s = .next t →
      (∀ off width, e = .memRead off width → t.err = s.err) ∧
      (∀ off width v, e = .memWrite off width v → off ≠ 0x000 → t.err = s.err) ∧
      (e = .powerOnReset → t.err = .ok)) ∧
    (∀ (i : Instr) (s t : State), exec i s = .next t →
      t.err = .ok ∨ (t.err = .badLen ∧ t = { s with err := .badLen }) ∨
        (t.err = .invalidState ∧ t = { s with err := .invalidState })) ∧
    (∀ (i : Instr) (s t : State), i = .finalize ∨ i = .reset ∨ i = .wipe → exec i s = .next t → t.err = .ok) ∧
    (∀ (len : Nat) (s t : State), len ≤ 127 → exec (.update len) s = .next t →
      t.err = if 64 < len then .badLen else if s.fsm = .finalized then .invalidState else .ok) ∧
    (∀ (len : Nat) (s t : State), len ≤ 127 → exec (.hash len) s = .next t → t.err = if 64 < len then .badLen else .ok) ∧
    (∀ (c : Word) (e : DecodeError) (s t : State), decode c = .error e → perform (commandWrite c) s = .next t →
      t.err = .illegalCmd)

/-- RESET: HashState = IV, empty Buffer, zero counter, READY, ERR = OK; everything else unchanged (R175, R171). -/
def Obligations.ResetReturnsToReady : Prop :=
  ∀ s : State, s.Inv →
    init s = { s with H := IV, bufLen := 0, byteCount := 0, fsm := .ready } ∧
    exec .reset s = .next { s with H := IV, bufLen := 0, byteCount := 0, fsm := .ready, err := .ok } ∧
    decode 0x00000003 = .ok .reset ∧
    (∀ c : Word, c.toNat % 2 ^ 8 = 3 → c ≠ 0x00000003 → perform (.memWrite 0x000 4 c) s = .next { s with err := .illegalCmd })

/-- WIPE: Buffer, schedule, working registers and DIN are zero, then as RESET (R176). -/
def Obligations.WipeClearsStorageAndReturnsToReady : Prop :=
  ∀ s : State, s.Inv →
    (∃ t, exec .wipe s = .next t ∧ (∀ k : Fin 128, t.buf[k] = 0) ∧ (∀ k : Fin 64, t.W[k] = 0) ∧ (∀ k : Fin 8, t.wr[k] = 0) ∧
      (∀ k : Fin 16, t.din[k] = 0) ∧ t.H = IV ∧ t.bufLen = 0 ∧ t.byteCount = 0 ∧ t.fsm = .ready ∧ t.err = .ok ∧
      t.pending = s.pending ∧ t.reads = s.reads ∧ t.powerOns = s.powerOns) ∧
    decode 0x00000004 = .ok .wipe ∧
    (∀ c : Word, c.toNat % 2 ^ 8 = 4 → c ≠ 0x00000004 → perform (.memWrite 0x000 4 c) s = .next { s with err := .illegalCmd })

/-- Idempotent finalize and rejection of UPDATE after it: every register but STATUS reads the same (44_controller.md section 4). -/
def Obligations.FinalizedEngineKeepsItsDigest : Prop :=
  ∀ (s : State) (len : Nat), s.Inv → s.fsm = .finalized → len ≤ 64 →
    ∀ i : Instr, i = .finalize ∨ i = .update len →
      ∃ t, exec i s = .next t ∧ t = { s with err := if i = .finalize then .ok else .invalidState } ∧
        ∀ r : Reg, r ≠ .status → readReg r t = readReg r s

/-- UPDATE: append the chunk, compress the one full block if there is one, count the bytes; everything else unchanged (R172, R173). -/
def Obligations.UpdateAppendsChunkAndCompressesFullBlock : Prop :=
  ∀ (s : State) (len : Nat), s.Inv →
    (len ≤ 64 → s.fsm = .finalized → exec (.update len) s = .next { s with err := .invalidState }) ∧
    (len ≤ 64 → s.fsm ≠ .finalized → Config.maxMessageBytes < s.byteCount.toNat + len →
      exec (.update len) s = .refused .messageTooLong) ∧
    (len ≤ 64 → s.fsm ≠ .finalized → s.byteCount.toNat + len ≤ Config.maxMessageBytes →
      ∃ (t : State) (b : Vector Byte 128), exec (.update len) s = .next t ∧
        t.byteCount.toNat = s.byteCount.toNat + len ∧ t.fsm = .updating ∧ t.err = .ok ∧ t.din = s.din ∧
        t.pending = s.pending ∧ t.reads = s.reads ∧ t.powerOns = s.powerOns ∧
        (∀ (j : Fin 64) (h : s.bufLen + j.val < 128), j.val < len → b[s.bufLen + j.val] = dinByte s.din j) ∧
        (∀ (k : Nat) (h : k < 128), k < s.bufLen ∨ s.bufLen + len ≤ k → b[k] = s.buf[k]) ∧
        ((s.bufLen + len < 64 ∧ t.bufLen = s.bufLen + len ∧ t.buf = b ∧ t.H = s.H ∧ t.W = s.W ∧ t.wr = s.wr) ∨
         (64 ≤ s.bufLen + len ∧ t.bufLen = s.bufLen + len - 64 ∧
          (∀ (k : Nat) (h : k < 64), t.buf[k] = b[64 + k] ∧ t.buf[64 + k] = b[64 + k]) ∧
          ∃ B : Block, (∀ (k : Nat) (h : k < 64), B[k] = b[k]) ∧ t.W = expand (parseWords B) ∧
            (t.H, t.wr) = compressBlock s.H t.W))) ∧
    (len ≤ 127 → decode (BitVec.ofNat 32 (len * 2 ^ 8 + 1)) = .ok (.update len)) ∧
    (64 < len → len ≤ 127 → exec (.update len) s = .next { s with err := .badLen }) ∧
    (∀ c : Word, c.toNat % 2 ^ 8 = 1 → c.toNat / 2 ^ 15 ≠ 0 →
      perform (.memWrite 0x000 4 c) s = .next { s with err := .illegalCmd })

/-- With an empty Buffer, UPDATE 64 compresses exactly the sixteen DIN Words (20_memory.md section 1, 10_state.md section 3). -/
def Obligations.FullChunkIntoEmptyBufferIsTheBlock : Prop :=
  (∀ d : Vector Word 16, parseWords (Vector.ofFn fun j => dinByte d j) = d) ∧
    ∀ s : State, s.Inv → s.bufLen = 0 → s.fsm ≠ .finalized → s.byteCount.toNat + 64 ≤ Config.maxMessageBytes →
      ∃ t, exec (.update 64) s = .next t ∧ t.bufLen = 0 ∧ t.W = expand s.din ∧
        (t.H, t.wr) = compressBlock s.H (expand s.din) ∧ t.din = s.din

/-- FINALIZE: pad the Buffer, compress one or two tail blocks, enter FINALIZED; everything else unchanged (R127, R174). -/
def Obligations.FinalizePadsAndCompressesTheTail : Prop :=
  ∀ s : State, s.Inv →
    (s.fsm = .finalized → exec .finalize s = .next { s with err := .ok }) ∧
    (s.fsm ≠ .finalized → ∃ t, exec .finalize s = .next t ∧ t.fsm = .finalized ∧ t.bufLen = 0 ∧ t.err = .ok ∧ t.byteCount = s.byteCount ∧
      t.din = s.din ∧ t.pending = s.pending ∧ t.reads = s.reads ∧ t.powerOns = s.powerOns ∧
      (let size := if s.bufLen ≤ 55 then 64 else 128
       (∀ (k : Nat) (h : k < 128), k < s.bufLen ∨ size ≤ k → t.buf[k] = s.buf[k]) ∧
       (∀ h : s.bufLen < 128, t.buf[s.bufLen] = 0x80) ∧
       (∀ (k : Nat) (h : k < 128), s.bufLen < k → k < size - 8 → t.buf[k] = 0x00) ∧
       (∀ (j : Nat) (h : size - 8 + j < 128), j < 8 →
         (t.buf[size - 8 + j]).toNat = 8 * s.byteCount.toNat / 2 ^ (56 - 8 * j) % 2 ^ 8)) ∧
      (let W0 := expand (parseWords (bufBlock t.buf 0))
       (s.bufLen ≤ 55 → t.W = W0 ∧ (t.H, t.wr) = compressBlock s.H W0) ∧
       (56 ≤ s.bufLen → t.W = expand (parseWords (bufBlock t.buf 1)) ∧
         (t.H, t.wr) = compressBlock (compressBlock s.H W0).1 t.W)) ∧
      ∀ i : Fin 8, readReg (.digest i) t = t.H[i]) ∧
    decode 0x00000002 = .ok .finalize ∧
    (∀ c : Word, c.toNat % 2 ^ 8 = 2 → c ≠ 0x00000002 → perform (.memWrite 0x000 4 c) s = .next { s with err := .illegalCmd })

/-- HASH len has the effect of RESET, UPDATE len, FINALIZE in a row, in every controller state (44_controller.md section 3). -/
def Obligations.HashIsResetUpdateFinalize : Prop :=
  ∀ (s : State) (len : Nat), s.Inv → len ≤ 64 →
    ∃ a b t, exec .reset s = .next a ∧ exec (.update len) a = .next b ∧ exec .finalize b = .next t ∧
      exec (.hash len) s = .next t ∧ t.fsm = .finalized ∧ t.bufLen = 0 ∧ t.err = .ok ∧ t.byteCount = BitVec.ofNat 64 len ∧
      t.din = s.din ∧ t.pending = s.pending ∧ t.reads = s.reads ∧ t.powerOns = s.powerOns

/-- The transition table of the controller (44_controller.md section 4). -/
def Obligations.ControllerTransitions : Prop :=
  ∀ (s : State) (len : Nat), s.Inv →
    (len ≤ 64 → s.fsm ≠ .finalized → s.byteCount.toNat + len ≤ Config.maxMessageBytes →
      ∃ t, exec (.update len) s = .next t ∧ t.fsm = .updating ∧ t.err = .ok) ∧
    (len ≤ 64 → s.fsm = .finalized → ∃ t, exec (.update len) s = .next t ∧ t.fsm = .finalized ∧ t.err = .invalidState) ∧
    (∃ t, exec .finalize s = .next t ∧ t.fsm = .finalized) ∧
    (∃ t, exec .reset s = .next t ∧ t.fsm = .ready) ∧
    (∃ t, exec .wipe s = .next t ∧ t.fsm = .ready) ∧
    (len ≤ 64 → ∃ t, exec (.hash len) s = .next t ∧ t.fsm = .finalized) ∧
    (64 < len → len ≤ 127 → (∃ t, exec (.update len) s = .next t ∧ t.fsm = s.fsm) ∧ ∃ t, exec (.hash len) s = .next t ∧ t.fsm = s.fsm) ∧
    (∀ (c : Word) (e : DecodeError), decode c = .error e →
      ∃ t, perform (commandWrite c) s = .next t ∧ t.fsm = s.fsm) ∧
    (∀ (i : Instr) (t : State), s.fsm = .finalized → exec i s = .next t → t.fsm ≠ .finalized → i = .reset ∨ i = .wipe)

/-- While FINALIZED no command but RESET, WIPE and HASH changes HashState, Buffer, fill length or counter (R46). -/
def Obligations.FinalizedEngineIsImmutable : Prop :=
  ∀ (s t : State) (c : Word) (rest : List HostEvent), s.fsm = .finalized → s.pending = .memWrite 0x000 4 c :: rest →
    decode c ≠ .ok .reset → decode c ≠ .ok .wipe → (∀ len ≤ 64, decode c ≠ .ok (.hash len)) → step s = .next t →
    t.H = s.H ∧ t.buf = s.buf ∧ t.bufLen = s.bufLen ∧ t.byteCount = s.byteCount ∧ t.fsm = s.fsm

/-- No command but WIPE changes DIN, and chunk byte j is the named byte of DIN(j div 4) (R33). -/
def Obligations.CommandsChangeDinOnlyByWipe : Prop :=
  (∀ (i : Instr) (s t : State), i ≠ .wipe → exec i s = .next t → t.din = s.din) ∧
    (∀ (s t : State) (j : Fin 16), exec .wipe s = .next t → t.din[j] = 0) ∧
    (∀ (d : Vector Word 16) (j b : Nat) (h : j < 64), b < 8 →
      (dinByte d ⟨j, h⟩).getLsbD b = d[j / 4].getLsbD (24 - 8 * (j % 4) + b))

/-- UPDATE and HASH depend on DIN only through the first LEN chunk bytes (70_reset_and_hazards.md section 3). -/
def Obligations.DinBytesBeyondLenAreIgnored : Prop :=
  ∀ (s : State) (d : Vector Word 16) (len : Nat), len ≤ 64 → (∀ j : Fin 64, j.val < len → dinByte d j = dinByte s.din j) →
    (∀ i : Instr, i = .update len ∨ i = .hash len →
      exec i { s with din := d } = andThen (exec i s) fun t => .next { t with din := d })

/-- What each step leaves in HashState: the old value, IV, or the named blocks of the Buffer folded into one of the two (10_state.md section 3, 43_compression.md (order of blocks), 44_controller.md section 3, 90_conflicts.md C3). -/
def Obligations.HashStateChangesOnlyByInitAndCompression : Prop :=
  ∀ s t : State, step s = .next t →
    (s.pending = [] → t.H = s.H) ∧
    ∀ (e : HostEvent) (rest : List HostEvent), s.pending = e :: rest →
      (e = .powerOnReset → t.H = IV) ∧
      ((∀ c, e ≠ .memWrite 0x000 4 c) → e ≠ .powerOnReset → t.H = s.H) ∧
      ∀ c : Word, e = .memWrite 0x000 4 c →
        let s0 : State := { s with pending := rest }
        (∀ why, decode c = .error why → t.H = s.H) ∧
        (decode c = .ok .reset ∨ decode c = .ok .wipe → t.H = IV) ∧
        (decode c = .ok .finalize →
          (s.fsm = .finalized → t.H = s.H) ∧
          (s.fsm ≠ .finalized → s.bufLen ≤ 55 → t.H = hashBlocks s.H [bufBlock (paddedBuffer s0) 0]) ∧
          (s.fsm ≠ .finalized → 56 ≤ s.bufLen →
            t.H = hashBlocks s.H [bufBlock (paddedBuffer s0) 0, bufBlock (paddedBuffer s0) 1])) ∧
        (∀ len, decode c = .ok (.update len) →
          (64 < len ∨ s.fsm = .finalized ∨ s.bufLen + len < 64 → t.H = s.H) ∧
          (len ≤ 64 → s.fsm ≠ .finalized → 64 ≤ s.bufLen + len →
            t.H = hashBlocks s.H [bufBlock (appendedBuffer len s0) 0])) ∧
        (∀ len, decode c = .ok (.hash len) →
          let a := appendChunk len (init s0)
          (64 < len → t.H = s.H) ∧
          (len ≤ 55 → t.H = hashBlocks IV [bufBlock (paddedBuffer a) 0]) ∧
          (56 ≤ len → len < 64 → t.H = hashBlocks IV [bufBlock (paddedBuffer a) 0, bufBlock (paddedBuffer a) 1]) ∧
          (len = 64 → t.H = hashBlocks IV [bufBlock a.buf 0, bufBlock (paddedBuffer (drainBlock a)) 0]))

/-- STATUS: STATE, ERR and BUF_LEN in their bits, every other bit 0, writes ignored (R37). -/
def Obligations.StatusReadsItsFields : Prop :=
  (∀ (s : State) (rest : List HostEvent), s.pending = .memRead 0x004 4 :: rest →
      ∃ v : Word, step s = .next { s with pending := rest, reads := s.reads ++ [v] } ∧
        v.toNat % 4 = (match s.fsm with | .ready => 0 | .updating => 1 | .finalized => 2) ∧ v.toNat / 2 ^ 2 % 4 = 0 ∧
        v.toNat / 2 ^ 4 % 16 = (match s.err with | .ok => 0 | .invalidState => 1 | .illegalCmd => 2 | .badLen => 3) ∧
        (s.bufLen ≤ 127 → v.toNat / 2 ^ 8 % 128 = s.bufLen) ∧ v.toNat / 2 ^ 15 = 0 ∧
        (s.bufLen ≤ 63 → v.toNat / 2 ^ 8 % 128 ≤ 63)) ∧
    (∀ (s : State) (rest : List HostEvent) (x : Word), s.pending = .memWrite 0x004 4 x :: rest →
      step s = .next { s with pending := rest }) ∧
    (∀ (b : Vector Byte 128) (W : Vector Word 64) (r : Vector Word 8), readReg .status (State.poweredOn b W r) = 0)

/-- BYTE_COUNT_LO and BYTE_COUNT_HI read the two halves of the counter, writes are ignored (R38). -/
def Obligations.ByteCountRegistersReadTheCounter : Prop :=
  (∀ (s : State) (rest : List HostEvent), s.pending = .memRead 0x008 4 :: rest →
      ∃ v : Word, step s = .next { s with pending := rest, reads := s.reads ++ [v] } ∧ v.toNat = s.byteCount.toNat % 2 ^ 32) ∧
    (∀ (s : State) (rest : List HostEvent), s.pending = .memRead 0x00C 4 :: rest →
      ∃ v : Word, step s = .next { s with pending := rest, reads := s.reads ++ [v] } ∧ v.toNat = s.byteCount.toNat / 2 ^ 32) ∧
    (∀ (s : State) (rest : List HostEvent) (off : Nat) (x : Word), off = 0x008 ∨ off = 0x00C →
      s.pending = .memWrite off 4 x :: rest → step s = .next { s with pending := rest }) ∧
    (∀ (b : Vector Byte 128) (W : Vector Word 64) (r : Vector Word 8),
      readReg .byteCountLo (State.poweredOn b W r) = 0 ∧ readReg .byteCountHi (State.poweredOn b W r) = 0)

/-- DIGESTi reads H[i] in FINALIZED and 0 otherwise; its bytes are the digest's; writes are ignored (R39, R179). -/
def Obligations.DigestReadsHashStateOnlyWhenFinalized : Prop :=
  (∀ (s : State) (rest : List HostEvent) (i : Fin 8), s.pending = .memRead (0x020 + 4 * i.val) 4 :: rest →
      step s = .next { s with pending := rest, reads := s.reads ++ [if s.fsm = .finalized then s.H[i] else 0x00000000] }) ∧
    (∀ (s : State) (rest : List HostEvent) (i : Fin 8) (x : Word), s.pending = .memWrite (0x020 + 4 * i.val) 4 x :: rest →
      step s = .next { s with pending := rest }) ∧
    (∀ (H : Vector Word 8) (i k b : Nat) (hi : i < 8) (hk : k < 4), b < 8 →
      (digestBytes H)[4 * i + k].getLsbD b = H[i].getLsbD (24 - 8 * k + b))

/-- A write of DINj sets that Word only; a read returns it; it is 0 after power-on reset (R40). -/
def Obligations.DinWindowStoresAndReturnsWords : Prop :=
  (∀ (s : State) (rest : List HostEvent) (j : Fin 16) (v : Word), s.pending = .memWrite (0x040 + 4 * j.val) 4 v :: rest →
      ∃ d : Vector Word 16, step s = .next { s with pending := rest, din := d } ∧ d[j] = v ∧
        ∀ k : Fin 16, k ≠ j → d[k] = s.din[k]) ∧
    (∀ (s : State) (rest : List HostEvent) (j : Fin 16), s.pending = .memRead (0x040 + 4 * j.val) 4 :: rest →
      step s = .next { s with pending := rest, reads := s.reads ++ [s.din[j]] }) ∧
    (∀ (b : Vector Byte 128) (W : Vector Word 64) (r : Vector Word 8) (j : Fin 16), (State.poweredOn b W r).din[j] = 0)

/-- A word written to CMD is run as a command, CMD reads 0; the four reserved offsets read 0 and ignore writes (R36, R41). -/
def Obligations.ReservedAndCommandRegistersReadZero : Prop :=
  (∀ (s : State) (rest : List HostEvent) (off : Nat), off = 0x000 ∨ off = 0x010 ∨ off = 0x014 ∨ off = 0x018 ∨ off = 0x01C →
      s.pending = .memRead off 4 :: rest → step s = .next { s with pending := rest, reads := s.reads ++ [0x00000000] }) ∧
    (∀ (s : State) (rest : List HostEvent) (v : Word), s.pending = .memWrite 0x000 4 v :: rest →
      (∀ i, decode v = .ok i → step s = exec i { s with pending := rest }) ∧
      (∀ e, decode v = .error e → s.Inv → step s = .next { s with pending := rest, err := .illegalCmd }) ∧
      (∀ k, (opcodeField v).getLsbD k = (decide (k < 8) && v.getLsbD k) ∧
        (lenField v).getLsbD k = (decide (k < 7) && v.getLsbD (8 + k)) ∧
        (rsvdField v).getLsbD k = (decide (k < 17) && v.getLsbD (15 + k)))) ∧
    (∀ (s : State) (rest : List HostEvent) (off : Nat) (x : Word), off = 0x010 ∨ off = 0x014 ∨ off = 0x018 ∨ off = 0x01C →
      s.pending = .memWrite off 4 x :: rest → step s = .next { s with pending := rest }) ∧
    (∀ k : Fin 32, (∃ i, regAt k = .reserved i) ↔ 4 ≤ k.val ∧ k.val ≤ 7)

/-- An access inside the window that is not 32 bits wide, or not aligned, is refused (R62, R63). -/
def Obligations.NarrowOrMisalignedAccessIsRefused : Prop :=
  ∀ (s : State) (rest : List HostEvent) (off width : Nat) (e : HostEvent), off < 0x80 →
    (e = .memRead off width ∨ ∃ v, e = .memWrite off width v) → s.pending = e :: rest →
    (width ≠ 4 → off % 4 = 0 → step s = .refused .accessWidth) ∧
    (width = 4 → off % 4 ≠ 0 → step s = .refused .misaligned) ∧
    (width ≠ 4 → off % 4 ≠ 0 → step s = .refused .accessWidth ∨ step s = .refused .misaligned)

/-- An access outside 0x000..0x07F is refused by the one-engine model (the model's choice, log entry 9) (20_memory.md section 2). -/
def Obligations.AccessOutsideTheWindowIsRefused : Prop :=
  ∀ (s : State) (rest : List HostEvent) (off width : Nat) (e : HostEvent), 0x80 ≤ off →
    (e = .memRead off width ∨ ∃ v, e = .memWrite off width v) → s.pending = e :: rest → step s = .refused .outsideWindow

/-- The power-on reset, applied at any time, gives the state R48 lists (R48, R230). -/
def Obligations.PowerOnResetState : Prop :=
  (∀ (s : State) (rest : List HostEvent), s.pending = .powerOnReset :: rest →
      ∃ t, step s = .next t ∧ t.H = IV ∧ t.bufLen = 0 ∧ t.byteCount = 0 ∧ t.fsm = .ready ∧ t.err = .ok ∧
        (∀ j : Fin 16, t.din[j] = 0)) ∧
    (∀ (b : Vector Byte 128) (W : Vector Word 64) (v : Vector Word 8),
      let t := State.poweredOn b W v
      t.H = IV ∧ t.bufLen = 0 ∧ t.byteCount = 0 ∧ t.fsm = .ready ∧ t.err = .ok ∧ (∀ j : Fin 16, t.din[j] = 0) ∧
        t.buf = b ∧ t.W = W ∧ t.wr = v)

/-- After a power-on reset every register of the window reads 0; events and values read survive it (the model's choice, log entry 3) (10_state.md sections 4 and 8). -/
def Obligations.EveryRegisterReadsZeroAfterPowerOn : Prop :=
  (∀ (s : State) (rest : List HostEvent), s.pending = .powerOnReset :: rest →
      ∃ t, step s = .next t ∧ t.pending = rest ∧ t.reads = s.reads ∧ ∀ off, off < 0x80 → off % 4 = 0 →
        perform (.memRead off 4) t = .next { t with reads := t.reads ++ [0x00000000] }) ∧
    (∀ (b : Vector Byte 128) (W : Vector Word 64) (v : Vector Word 8) (k : Fin 32),
      readReg (regAt k) (State.poweredOn b W v) = 0)

/-- The state after power-on reset meets the invariant, whatever the storage left at any value holds (10_state.md sections 7 and 8). -/
def Obligations.ResetStateMeetsTheInvariant : Prop :=
  State.reset.Inv ∧ ∀ (b : Vector Byte 128) (W : Vector Word 64) (v : Vector Word 8), (State.poweredOn b W v).Inv

/-- Every step leaves less than one block in the Buffer (R44). -/
def Obligations.EveryStepKeepsLessThanABlockBuffered : Prop :=
  ∀ s t : State, s.bufLen ≤ 63 → step s = .next t → t.bufLen ≤ 63

/-- Every step keeps: bufLen at most 63, bufLen = byteCount mod 64 unless FINALIZED and 0 when FINALIZED, counter at most 2^61 - 1 (10_state.md sections 3 and 7). -/
def Obligations.EveryStepKeepsTheInvariant : Prop :=
  ∀ s t : State, s.Inv → step s = .next t → t.Inv

/-- From a state that meets the invariant no step faults, and a legal event is refused only by the domain limit (60_exceptions.md section 3, 20_memory.md section 5). -/
def Obligations.InvariantStateNeverFaults : Prop :=
  ∀ s : State, s.Inv →
    (∀ f, step s ≠ .fault f) ∧
    ∀ (e : HostEvent) (rest : List HostEvent), s.pending = e :: rest → e.legal = true →
      (∃ t, step s = .next t) ∨
      (step s = .refused .messageTooLong ∧ ∃ (c : Word) (len : Nat), e = .memWrite 0x000 4 c ∧ decode c = .ok (.update len) ∧
        s.fsm ≠ .finalized ∧ len ≤ 64 ∧ Config.maxMessageBytes < s.byteCount.toNat + len)

/-- Dead Buffer bytes, the schedule and the working registers never influence what a later step or read shows (10_state.md section 6, 93_implementation_defined.md U3 to U5). -/
def Obligations.DeadStorageIsUnobservable : Prop :=
  ∀ s t : State, s.SameLive t → Result.Agree State.SameLive (step s) (step t) ∧ s.observe = t.observe

/-- rotr moves bit (i + n) mod 32 to bit i, for every n; rotation by 0 and 32 is the identity (R100). -/
def Obligations.RotrMovesEachBit : Prop :=
  ∀ (x : Word) (n : Nat),
    rotr x n = (x >>> (n % 32)) ||| (x <<< (32 - n % 32)) ∧
    (∀ i, i < 32 → (rotr x n).getLsbD i = x.getLsbD ((i + n % 32) % 32)) ∧ rotr x 0 = x ∧ rotr x 32 = x

/-- ch, maj, shr and the four sigma functions, bit by bit (R101, R102, R103, R104, R105, R106, R107). -/
def Obligations.WordPrimitivesBitByBit : Prop :=
  ∀ (x y z : Word) (n : Fin 32) (i : Nat), i < 32 →
    (shr x n).getLsbD i = x.getLsbD (i + n.val) ∧
    (ch x y z).getLsbD i = ((x.getLsbD i && y.getLsbD i) ^^ (!x.getLsbD i && z.getLsbD i)) ∧
    (maj x y z).getLsbD i =
      ((x.getLsbD i && y.getLsbD i) ^^ (x.getLsbD i && z.getLsbD i) ^^ (y.getLsbD i && z.getLsbD i)) ∧
    (bigSigma0 x).getLsbD i = (x.getLsbD ((i + 2) % 32) ^^ x.getLsbD ((i + 13) % 32) ^^ x.getLsbD ((i + 22) % 32)) ∧
    (bigSigma1 x).getLsbD i = (x.getLsbD ((i + 6) % 32) ^^ x.getLsbD ((i + 11) % 32) ^^ x.getLsbD ((i + 25) % 32)) ∧
    (smallSigma0 x).getLsbD i = (x.getLsbD ((i + 7) % 32) ^^ x.getLsbD ((i + 18) % 32) ^^ x.getLsbD (i + 3)) ∧
    (smallSigma1 x).getLsbD i = (x.getLsbD ((i + 17) % 32) ^^ x.getLsbD ((i + 19) % 32) ^^ x.getLsbD (i + 10))

/-- ch chooses between two bits, maj is the majority of three (40_bitwise.md (ch, maj)). -/
def Obligations.ChooseAndMajorityBits : Prop :=
  ∀ (x y z : Word) (i : Nat), i < 32 →
    (ch x y z).getLsbD i = (if x.getLsbD i then y.getLsbD i else z.getLsbD i) ∧
    (maj x y z).getLsbD i = decide (2 ≤ (x.getLsbD i).toNat + (y.getLsbD i).toNat + (z.getLsbD i).toNat)

/-- addMod32 is the unbounded sum of its operands modulo 2^32 (R108). -/
def Obligations.AddMod32IsTheSumModulo : Prop :=
  (∀ ws : List Word, (addMod32 ws).toNat = (ws.map BitVec.toNat).sum % 2 ^ 32) ∧
    (∀ a b c d e : Word, addMod32 [a] = a ∧ addMod32 [a, b] = a + b ∧ addMod32 [a, b, c, d] = a + b + c + d ∧
      addMod32 [a, b, c, d, e] = a + b + c + d + e)

/-- IV[i] is the first 32 bits of the fractional part of the square root of the i-th prime (10_state.md section 3, 93_implementation_defined.md G1). -/
def Obligations.InitialHashValuesAreSquareRoots : Prop :=
  ∀ i : Fin 8, ∃ p n : Nat, [2, 3, 5, 7, 11, 13, 17, 19][i.val]? = some p ∧
    (n * 2 ^ 32 + IV[i].toNat) ^ 2 ≤ p * 2 ^ 64 ∧ p * 2 ^ 64 < (n * 2 ^ 32 + IV[i].toNat + 1) ^ 2

/-- K[t] is the first 32 bits of the fractional part of the cube root of the t-th prime (43_compression.md (round constants), 93_implementation_defined.md G2). -/
def Obligations.RoundConstantsAreCubeRoots : Prop :=
  ((List.range 312).filter fun p => decide (2 ≤ p ∧ ∀ d < p, 2 ≤ d → p % d ≠ 0)).length = 64 ∧
    ∀ t : Fin 64, ∃ p n : Nat,
      ((List.range 312).filter fun p => decide (2 ≤ p ∧ ∀ d < p, 2 ≤ d → p % d ≠ 0))[t.val]? = some p ∧
      (n * 2 ^ 32 + K[t].toNat) ^ 3 ≤ p * 2 ^ 96 ∧ p * 2 ^ 96 < (n * 2 ^ 32 + K[t].toNat + 1) ^ 3

/-- parseWords groups a block into 16 big-endian Words (R124). -/
def Obligations.ParseWordsIsBigEndian : Prop :=
  ∀ (B : Block) (i k b : Nat) (hi : i < 16) (hk : k < 4), b < 8 →
    (parseWords B)[i] = be32 B[4 * i] B[4 * i + 1] B[4 * i + 2] B[4 * i + 3] ∧
    (parseWords B)[i].getLsbD (24 - 8 * k + b) = B[4 * i + k].getLsbD b

/-- expand: entries 0 to 15 are the block's Words, entries 16 to 63 meet the recurrence (R140). -/
def Obligations.ScheduleMeetsTheRecurrence : Prop :=
  ∀ (M : Vector Word 16) (t : Nat) (h : t < 64),
    (∀ h' : t < 16, (expand M)[t] = M[t]) ∧
    (16 ≤ t → (expand M)[t] =
      addMod32 [smallSigma1 (expand M)[t - 2], (expand M)[t - 7], smallSigma0 (expand M)[t - 15], (expand M)[t - 16]])

/-- One compression round (R151). -/
def Obligations.RoundComputesTheNewWorkingRegisters : Prop :=
  ∀ (t : Fin 64) (a b c d e f g h Wt : Word),
    let T1 := h + bigSigma1 e + ch e f g + K[t] + Wt
    let T2 := bigSigma0 a + maj a b c
    compressionRound t #v[a, b, c, d, e, f, g, h] Wt = #v[T1 + T2, a, b, c, d + T1, e, f, g]

/-- compressBlock: 64 rounds in order on a copy of H, then the feed-forward addition (R152). -/
def Obligations.CompressBlockRunsSixtyFourRounds : Prop :=
  ∀ (H : Vector Word 8) (W : Vector Word 64), ∃ v : Nat → Vector Word 8, v 0 = H ∧
    (∀ t : Fin 64, v (t.val + 1) = compressionRound t (v t.val) W[t]) ∧
    (compressBlock H W).2 = v 64 ∧ ∀ i : Fin 8, (compressBlock H W).1[i] = H[i] + (v 64)[i]

/-- pad: one 1 bit, the fewest 0 bits that reach 448 mod 512, and the 64-bit big-endian bit length (R120). -/
def Obligations.PadAppendsTheMinimalBitPadding : Prop :=
  ∀ m : List Byte, 8 * m.length < 2 ^ 64 →
    ∃ k : Nat, (8 * m.length + 1 + k) % 512 = 448 ∧ (∀ k' < k, (8 * m.length + 1 + k') % 512 ≠ 448) ∧
      bitsOfBytes (pad m) = bitsOfBytes m ++ [true] ++ List.replicate k false ++
        (List.ofFn fun j : Fin 64 => decide (8 * m.length / 2 ^ (63 - j.val) % 2 = 1)) ∧
      (bitsOfBytes (pad m)).length % 512 = 0 ∧ 0 < (bitsOfBytes (pad m)).length ∧
      padBits (bitsOfBytes m) = bitsOfBytes (pad m)

/-- The padding length law: whole blocks, and 65 to 576 added bits (41_preprocess.md (padding length law), 90_conflicts.md C2). -/
def Obligations.PaddingLengthLaw : Prop :=
  (∀ bits : List Bool, (padBits bits).length % 512 = 0 ∧
      (padBits bits).length = bits.length + 1 + padZeroBits bits.length + 64 ∧
      65 ≤ (padBits bits).length - bits.length ∧ (padBits bits).length - bits.length ≤ 576 ∧
      1 ≤ 1 + padZeroBits bits.length ∧ 1 + padZeroBits bits.length ≤ 512) ∧
    (∀ m : List Byte, (pad m).length % 64 = 0 ∧ 9 ≤ (pad m).length - m.length ∧ (pad m).length - m.length ≤ 72) ∧
    (∀ m : List Byte, m.length % 64 ≤ 55 → 8 * ((pad m).length - m.length) = 512 - 8 * (m.length % 64)) ∧
    (∀ m : List Byte, 56 ≤ m.length % 64 → 8 * ((pad m).length - m.length) = 8 * (128 - m.length % 64))

/-- How many blocks pad gives, which of them are the message's own, and where the length field lies (41_preprocess.md (block count, length field)). -/
def Obligations.PaddedBlockCountAndTail : Prop :=
  ∀ m : List Byte,
    (m.length % 64 ≤ 55 → (parseBlocks (pad m)).length = m.length / 64 + 1) ∧
    (56 ≤ m.length % 64 → (parseBlocks (pad m)).length = m.length / 64 + 2) ∧
    (parseBlocks (pad m)).take (m.length / 64) = parseBlocks m ∧
    (8 * m.length < 2 ^ 64 → ∃ (z : Nat) (l : Vector Byte 8), (z : Int) = (55 - (m.length : Int)) % 64 ∧
      pad m = m ++ [0x80] ++ List.replicate z 0x00 ++ l.toList ∧
      ∀ j : Fin 8, l[j].toNat = 8 * m.length / 2 ^ (56 - 8 * j.val) % 2 ^ 8) ∧
    (8 * m.length < 2 ^ 64 → ∃ B : Block, (parseBlocks (pad m)).getLast? = some B ∧
      (parseWords B)[14].toNat = 8 * m.length / 2 ^ 32 ∧ (parseWords B)[15].toNat = 8 * m.length % 2 ^ 32)

/-- After power-on reset and after RESET the engine has absorbed the empty message (44_controller.md sections 2 and 3, 10_state.md section 8). -/
def Obligations.FreshEngineAbsorbsTheEmptyMessage : Prop :=
  (∀ (b : Vector Byte 128) (W : Vector Word 64) (v : Vector Word 8), (State.poweredOn b W v).Absorbing []) ∧
    ∀ s : State, s.Inv →
      ∃ t, exec .reset s = .next t ∧ t.Absorbing []

/-- If the engine has absorbed m, UPDATE len makes it have absorbed m followed by the chunk (44_controller.md sections 2 and 4). -/
def Obligations.UpdateAbsorbsItsChunk : Prop :=
  ∀ (m : List Byte) (s : State) (len : Nat), s.Absorbing m → len ≤ 64 → m.length + len ≤ Config.maxMessageBytes →
    ∃ t, exec (.update len) s = .next t ∧ t.Absorbing (m ++ chunk s.din len)

/-- If the engine has absorbed m, FINALIZE leaves SHA-256 of m in HashState, readable as DIGEST0..7 (43_compression.md (digest of a message), 44_controller.md section 3). -/
def Obligations.FinalizeGivesTheDigestOfTheMessage : Prop :=
  ∀ (m : List Byte) (s : State), s.Absorbing m →
    ∃ t, exec .finalize s = .next t ∧ t.fsm = .finalized ∧ t.byteCount = s.byteCount ∧
      t.H = (parseBlocks (pad m)).foldl (fun h B => (compressBlock h (expand (parseWords B))).1) IV ∧
      ∀ i : Fin 8, readReg (.digest i) t = (sha256 m)[i]

/-- HASH len leaves SHA-256 of its chunk in HashState, from every controller state (44_controller.md section 3, 43_compression.md (digest of a message)). -/
def Obligations.HashGivesTheDigestOfItsChunk : Prop :=
  ∀ (s : State) (len : Nat), s.Inv → len ≤ 64 →
    ∃ t, exec (.hash len) s = .next t ∧ t.fsm = .finalized ∧ t.H = sha256 (chunk s.din len) ∧ t.byteCount.toNat = len ∧
      t.bufLen = 0 ∧ t.err = .ok ∧ t.din = s.din

/-- Chunk invariance: every split of m into chunks of at most 64 bytes leaves the same digest, counter and STATUS as ABSORB m (44_controller.md section 4, 30_encoding.md section 6). -/
def Obligations.DigestIsChunkInvariant : Prop :=
  ∀ (s : State) (m : List Byte), s.Inv →
    m.length ≤ Config.maxMessageBytes →
    let Final (t : State) : Prop := t.pending = [] ∧ t.H = sha256 m ∧ t.byteCount.toNat = m.length ∧ t.fsm = .finalized ∧
      statusWord t = 0x00000002
    (∀ cs : List (List Byte), cs.flatten = m → (∀ c ∈ cs, c.length ≤ 64) →
      s.pending = [commandWrite (encode .reset)] ++ cs.flatMap submitEvents ++ [commandWrite (encode .finalize)] →
      ∃ t, runPending s = .next t ∧ Final t) ∧
    (s.pending = [commandWrite (encode .reset)] ++ absorbEvents m ++ [commandWrite (encode .finalize)] →
      ∃ t, runPending s = .next t ∧ Final t)

/-- The pseudo-instruction SHA256 m reads back the eight Words of the digest of m; for at most 64 bytes LOAD, HASH, READDIGEST do too (30_encoding.md section 6). -/
def Obligations.Sha256PseudoInstructionReadsTheDigest : Prop :=
  ∀ (s : State) (m : List Byte), s.Inv →
    m.length ≤ Config.maxMessageBytes →
    (s.pending = (Line.sha256 m).events → ∃ t, runPending s = .next t ∧ t.pending = [] ∧ t.reads = s.reads ++ (sha256 m).toList) ∧
    (m.length ≤ 64 →
      s.pending = (Line.load m).events ++ (Line.command (.hash m.length)).events ++ Line.readDigest.events →
      ∃ t, runPending s = .next t ∧ t.pending = [] ∧ t.reads = s.reads ++ (sha256 m).toList)

/-- On a platform an access acts on the engine whose window holds its address and no other; in no window it is refused (model's choice, log entries 9, 15) (60_exceptions.md section 6, 20_memory.md sections 2 and 3). -/
def Obligations.PlatformEnginesAreIndependent : Prop :=
  ∀ (p : Platform) (e : BusEvent), p.wf = true →
    (∀ (k : Nat) (h : k < p.length), p[k].owns e.addr = true →
      Platform.perform e p =
        match perform (e.atBase p[k].base) p[k].engine with
        | .next t => .next (p.set k { p[k] with engine := t })
        | .fault f => .fault f
        | .refused r => .refused r) ∧
    ((∀ i ∈ p, i.owns e.addr = false) → Platform.perform e p = .refused .outsideWindow)
end

