-- ==== Sys2Proof/Laws/State.lean ====
section
/-! SUPPORT. One lemma per field per update of the state, so that no proof unfolds a record update. -/

namespace Sys2Proof.Machine

section Init
variable (s : State)
@[simp] theorem init_H : (init s).H = IV := rfl
@[simp] theorem init_buf : (init s).buf = s.buf := rfl
@[simp] theorem init_bufLen : (init s).bufLen = 0 := rfl
@[simp] theorem init_byteCount : (init s).byteCount = 0 := rfl
@[simp] theorem init_fsm : (init s).fsm = .ready := rfl
@[simp] theorem init_err : (init s).err = s.err := rfl
@[simp] theorem init_W : (init s).W = s.W := rfl
@[simp] theorem init_wr : (init s).wr = s.wr := rfl
@[simp] theorem init_din : (init s).din = s.din := rfl
@[simp] theorem init_pending : (init s).pending = s.pending := rfl
@[simp] theorem init_reads : (init s).reads = s.reads := rfl
@[simp] theorem init_powerOns : (init s).powerOns = s.powerOns := rfl
end Init

section FinishOk
variable (s : State)
@[simp] theorem finishOk_H : (finishOk s).H = s.H := rfl
@[simp] theorem finishOk_buf : (finishOk s).buf = s.buf := rfl
@[simp] theorem finishOk_bufLen : (finishOk s).bufLen = s.bufLen := rfl
@[simp] theorem finishOk_byteCount : (finishOk s).byteCount = s.byteCount := rfl
@[simp] theorem finishOk_fsm : (finishOk s).fsm = s.fsm := rfl
@[simp] theorem finishOk_err : (finishOk s).err = .ok := rfl
@[simp] theorem finishOk_W : (finishOk s).W = s.W := rfl
@[simp] theorem finishOk_wr : (finishOk s).wr = s.wr := rfl
@[simp] theorem finishOk_din : (finishOk s).din = s.din := rfl
@[simp] theorem finishOk_pending : (finishOk s).pending = s.pending := rfl
@[simp] theorem finishOk_reads : (finishOk s).reads = s.reads := rfl
@[simp] theorem finishOk_powerOns : (finishOk s).powerOns = s.powerOns := rfl
end FinishOk

section EnterFinalized
variable (s : State)
@[simp] theorem enterFinalized_H : (enterFinalized s).H = s.H := rfl
@[simp] theorem enterFinalized_buf : (enterFinalized s).buf = s.buf := rfl
@[simp] theorem enterFinalized_bufLen : (enterFinalized s).bufLen = 0 := rfl
@[simp] theorem enterFinalized_byteCount : (enterFinalized s).byteCount = s.byteCount := rfl
@[simp] theorem enterFinalized_fsm : (enterFinalized s).fsm = .finalized := rfl
@[simp] theorem enterFinalized_err : (enterFinalized s).err = .ok := rfl
@[simp] theorem enterFinalized_W : (enterFinalized s).W = s.W := rfl
@[simp] theorem enterFinalized_wr : (enterFinalized s).wr = s.wr := rfl
@[simp] theorem enterFinalized_din : (enterFinalized s).din = s.din := rfl
@[simp] theorem enterFinalized_pending : (enterFinalized s).pending = s.pending := rfl
@[simp] theorem enterFinalized_reads : (enterFinalized s).reads = s.reads := rfl
@[simp] theorem enterFinalized_powerOns : (enterFinalized s).powerOns = s.powerOns := rfl
end EnterFinalized

section ClearStorage
variable (s : State)
@[simp] theorem clearStorage_H : (clearStorage s).H = s.H := rfl
@[simp] theorem clearStorage_buf : (clearStorage s).buf = Vector.replicate 128 0 := rfl
@[simp] theorem clearStorage_bufLen : (clearStorage s).bufLen = s.bufLen := rfl
@[simp] theorem clearStorage_byteCount : (clearStorage s).byteCount = s.byteCount := rfl
@[simp] theorem clearStorage_fsm : (clearStorage s).fsm = s.fsm := rfl
@[simp] theorem clearStorage_err : (clearStorage s).err = s.err := rfl
@[simp] theorem clearStorage_W : (clearStorage s).W = Vector.replicate 64 0 := rfl
@[simp] theorem clearStorage_wr : (clearStorage s).wr = Vector.replicate 8 0 := rfl
@[simp] theorem clearStorage_din : (clearStorage s).din = Vector.replicate 16 0 := rfl
@[simp] theorem clearStorage_pending : (clearStorage s).pending = s.pending := rfl
@[simp] theorem clearStorage_reads : (clearStorage s).reads = s.reads := rfl
@[simp] theorem clearStorage_powerOns : (clearStorage s).powerOns = s.powerOns := rfl
end ClearStorage

section CompressBytes
variable (B : Block) (s : State)
@[simp] theorem compressBytes_H : (compressBytes B s).H = (compressBlock s.H (expand (parseWords B))).1 := rfl
@[simp] theorem compressBytes_buf : (compressBytes B s).buf = s.buf := rfl
@[simp] theorem compressBytes_bufLen : (compressBytes B s).bufLen = s.bufLen := rfl
@[simp] theorem compressBytes_byteCount : (compressBytes B s).byteCount = s.byteCount := rfl
@[simp] theorem compressBytes_fsm : (compressBytes B s).fsm = s.fsm := rfl
@[simp] theorem compressBytes_err : (compressBytes B s).err = s.err := rfl
@[simp] theorem compressBytes_W : (compressBytes B s).W = expand (parseWords B) := rfl
@[simp] theorem compressBytes_wr : (compressBytes B s).wr = rounds s.H (expand (parseWords B)) := rfl
@[simp] theorem compressBytes_din : (compressBytes B s).din = s.din := rfl
@[simp] theorem compressBytes_pending : (compressBytes B s).pending = s.pending := rfl
@[simp] theorem compressBytes_reads : (compressBytes B s).reads = s.reads := rfl
@[simp] theorem compressBytes_powerOns : (compressBytes B s).powerOns = s.powerOns := rfl
end CompressBytes

section AppendChunk
variable (n : Nat) (s : State)
@[simp] theorem appendChunk_H : (appendChunk n s).H = s.H := by simp only [appendChunk]
@[simp] theorem appendChunk_buf : (appendChunk n s).buf = appendedBuffer n s := by simp only [appendChunk]
@[simp] theorem appendChunk_bufLen : (appendChunk n s).bufLen = s.bufLen + n := by simp only [appendChunk]
@[simp] theorem appendChunk_byteCount : (appendChunk n s).byteCount = s.byteCount + BitVec.ofNat 64 n := by simp only [appendChunk]
@[simp] theorem appendChunk_fsm : (appendChunk n s).fsm = s.fsm := by simp only [appendChunk]
@[simp] theorem appendChunk_err : (appendChunk n s).err = s.err := by simp only [appendChunk]
@[simp] theorem appendChunk_W : (appendChunk n s).W = s.W := by simp only [appendChunk]
@[simp] theorem appendChunk_wr : (appendChunk n s).wr = s.wr := by simp only [appendChunk]
@[simp] theorem appendChunk_din : (appendChunk n s).din = s.din := by simp only [appendChunk]
@[simp] theorem appendChunk_pending : (appendChunk n s).pending = s.pending := by simp only [appendChunk]
@[simp] theorem appendChunk_reads : (appendChunk n s).reads = s.reads := by simp only [appendChunk]
@[simp] theorem appendChunk_powerOns : (appendChunk n s).powerOns = s.powerOns := by simp only [appendChunk]
end AppendChunk

section DrainBlock
variable (s : State)
@[simp] theorem drainBlock_H :
    (drainBlock s).H = (compressBlock s.H (expand (parseWords (bufBlock s.buf 0)))).1 := rfl
@[simp] theorem drainBlock_buf : (drainBlock s).buf = shiftedBuffer s.buf := rfl
@[simp] theorem drainBlock_bufLen : (drainBlock s).bufLen = s.bufLen - 64 := rfl
@[simp] theorem drainBlock_byteCount : (drainBlock s).byteCount = s.byteCount := rfl
@[simp] theorem drainBlock_fsm : (drainBlock s).fsm = s.fsm := rfl
@[simp] theorem drainBlock_err : (drainBlock s).err = s.err := rfl
@[simp] theorem drainBlock_W : (drainBlock s).W = expand (parseWords (bufBlock s.buf 0)) := rfl
@[simp] theorem drainBlock_wr : (drainBlock s).wr = rounds s.H (expand (parseWords (bufBlock s.buf 0))) := rfl
@[simp] theorem drainBlock_din : (drainBlock s).din = s.din := rfl
@[simp] theorem drainBlock_pending : (drainBlock s).pending = s.pending := rfl
@[simp] theorem drainBlock_reads : (drainBlock s).reads = s.reads := rfl
@[simp] theorem drainBlock_powerOns : (drainBlock s).powerOns = s.powerOns := rfl
end DrainBlock

section PowerOn
variable (s : State)
@[simp] theorem powerOn_H : (powerOn s).H = IV := rfl
@[simp] theorem powerOn_bufLen : (powerOn s).bufLen = 0 := rfl
@[simp] theorem powerOn_byteCount : (powerOn s).byteCount = 0 := rfl
@[simp] theorem powerOn_fsm : (powerOn s).fsm = .ready := rfl
@[simp] theorem powerOn_err : (powerOn s).err = .ok := rfl
@[simp] theorem powerOn_din : (powerOn s).din = Vector.replicate 16 0 := rfl
@[simp] theorem powerOn_pending : (powerOn s).pending = s.pending := rfl
@[simp] theorem powerOn_reads : (powerOn s).reads = s.reads := rfl
@[simp] theorem powerOn_powerOns : (powerOn s).powerOns = s.powerOns + 1 := rfl
end PowerOn

section PadTail
variable (s : State)
@[simp] theorem padTail_buf : (padTail s).buf = paddedBuffer s := by unfold padTail; split <;> rfl
@[simp] theorem padTail_bufLen : (padTail s).bufLen = s.bufLen := by unfold padTail; split <;> rfl
@[simp] theorem padTail_byteCount : (padTail s).byteCount = s.byteCount := by unfold padTail; split <;> rfl
@[simp] theorem padTail_fsm : (padTail s).fsm = s.fsm := by unfold padTail; split <;> rfl
@[simp] theorem padTail_err : (padTail s).err = s.err := by unfold padTail; split <;> rfl
@[simp] theorem padTail_din : (padTail s).din = s.din := by unfold padTail; split <;> rfl
@[simp] theorem padTail_pending : (padTail s).pending = s.pending := by unfold padTail; split <;> rfl
@[simp] theorem padTail_reads : (padTail s).reads = s.reads := by unfold padTail; split <;> rfl
@[simp] theorem padTail_powerOns : (padTail s).powerOns = s.powerOns := by unfold padTail; split <;> rfl
end PadTail

end Sys2Proof.Machine
end

