-- ==== Sys2Proof/Laws/Datapath.lean ====
section
/-! SUPPORT. One spec lemma for each datapath function. -/

namespace Sys2Proof.Machine

/-- addMod32 of Words is their sum as bit vectors (40_bitwise.md R108). -/
theorem addMod32_nil : addMod32 [] = 0 := rfl

theorem addMod32_cons (w : Word) (ws : List Word) : addMod32 (w :: ws) = w + addMod32 ws := by
  apply BitVec.eq_of_toNat_eq
  simp [addMod32, BitVec.toNat_add]

@[simp] theorem addMod32_toNat (ws : List Word) : (addMod32 ws).toNat = (ws.map BitVec.toNat).sum % 2 ^ 32 := by
  simp [addMod32]

/-- Bit i of be32, counted from the least significant. -/
theorem be32_getLsbD (b0 b1 b2 b3 : Byte) (i : Nat) :
    (be32 b0 b1 b2 b3).getLsbD i =
      if i < 8 then b3.getLsbD i else if i < 16 then b2.getLsbD (i - 8)
      else if i < 24 then b1.getLsbD (i - 16) else b0.getLsbD (i - 24) := by
  unfold be32
  rw [BitVec.getLsbD_append, BitVec.getLsbD_append, BitVec.getLsbD_append]
  by_cases h : i < 8
  · simp [h]
  · by_cases h2 : i < 16
    · simp [h, h2, show i - 8 < 8 by omega]
    · by_cases h3 : i < 24
      · simp only [h, h2, h3, if_true, if_false, show ¬ i - 8 < 8 by omega, show i - 8 - 8 = i - 16 by omega,
          show i - 16 < 8 by omega]
      · simp [h, h2, h3, show ¬ i - 8 < 8 by omega, show ¬ i - 8 - 8 < 8 by omega, show i - 8 - 8 - 8 = i - 24 by omega]

theorem wordByte_getLsbD (w : Word) (k : Fin 4) (i : Nat) (h : i < 8) :
    (wordByte w k).getLsbD i = w.getLsbD (24 - 8 * k.val + i) := by
  simp [wordByte, h]

/-- Byte k of be32 is its k-th argument. -/
theorem wordByte_be32 (b0 b1 b2 b3 : Byte) :
    wordByte (be32 b0 b1 b2 b3) 0 = b0 ∧ wordByte (be32 b0 b1 b2 b3) 1 = b1 ∧
      wordByte (be32 b0 b1 b2 b3) 2 = b2 ∧ wordByte (be32 b0 b1 b2 b3) 3 = b3 := by
  refine ⟨?_, ?_, ?_, ?_⟩ <;> apply BitVec.eq_of_getLsbD_eq <;> intro i hi <;>
    rw [wordByte_getLsbD _ _ _ hi, be32_getLsbD]
  · simp [show ¬ 24 + i < 8 by omega, show ¬ 24 + i < 16 by omega]
  · simp [show ¬ 16 + i < 8 by omega, show 16 + i < 24 by omega]
  · simp [show ¬ 8 + i < 8 by omega, show 8 + i < 16 by omega]
  · simp [hi]

/-- be32 of a Word's four bytes is the Word. -/
theorem be32_wordByte (w : Word) : be32 (wordByte w 0) (wordByte w 1) (wordByte w 2) (wordByte w 3) = w := by
  apply BitVec.eq_of_getLsbD_eq
  intro i hi
  rw [be32_getLsbD]
  by_cases h : i < 8
  · simp only [h, if_true]; rw [wordByte_getLsbD _ _ _ h]; simp
  · by_cases h2 : i < 16
    · simp [h, h2, wordByte_getLsbD _ _ _ (show i - 8 < 8 by omega), show 8 + (i - 8) = i by omega]
    · by_cases h3 : i < 24
      · simp [h, h2, h3, wordByte_getLsbD _ _ _ (show i - 16 < 8 by omega), show 16 + (i - 16) = i by omega]
      · simp [h, h2, h3, wordByte_getLsbD _ _ _ (show i - 24 < 8 by omega), show 24 + (i - 24) = i by omega]

@[simp] theorem parseWords_getElem (B : Block) (i : Nat) (h : i < 16) :
    (parseWords B)[i] = be32 B[4 * i] B[4 * i + 1] B[4 * i + 2] B[4 * i + 3] := by
  simp [parseWords]

/-- The steps of the recurrence that write other entries leave entry t alone (42_schedule.md R140). -/
theorem expandSteps_frame (l : List (Fin 48)) (W : Vector Word 64) (t : Nat) (h : t < 64)
    (hl : ∀ u ∈ l, 16 + u.val ≠ t) : (l.foldl expandStep W)[t] = W[t] := by
  induction l generalizing W with
  | nil => rfl
  | cons u l ih =>
    have hu := hl u (List.mem_cons_self ..)
    rw [List.foldl_cons, ih _ (fun v hv => hl v (List.mem_cons_of_mem _ hv))]
    simp [expandStep, Vector.getElem_set_ne _ _ hu]

/-- hashBlocks folds blocks in order, each from the state the last one left (43_compression.md R154). -/
@[simp] theorem hashBlocks_nil (H : Vector Word 8) : hashBlocks H [] = H := rfl

@[simp] theorem hashBlocks_cons (H : Vector Word 8) (B : Block) (bs : List Block) :
    hashBlocks H (B :: bs) = hashBlocks (compressBlock H (expand (parseWords B))).1 bs := rfl

theorem hashBlocks_append (H : Vector Word 8) (as bs : List Block) :
    hashBlocks H (as ++ bs) = hashBlocks (hashBlocks H as) bs := by
  simp [hashBlocks, List.foldl_append]

/-- Parsing gives one block for each whole 64 bytes (41_preprocess.md R123). -/
@[simp] theorem parseBlocks_length (p : List Byte) : (parseBlocks p).length = p.length / 64 := by simp [parseBlocks]

@[simp] theorem parseBlocks_nil : parseBlocks [] = [] := rfl

theorem blockAt_getElem (p : List Byte) (i j : Nat) (h : j < 64) : (blockAt p i)[j] = p.getD (64 * i + j) 0 := by
  simp [blockAt]

/-- The length of the padded message (41_preprocess.md R121). -/
theorem pad_length (m : List Byte) : (pad m).length = m.length + 1 + padZeroBytes m.length + 8 := by
  simp [pad]; omega

end Sys2Proof.Machine
end

