-- ==== Sys2Proof/Laws/PerInstr.lean ====
section
/-! SUPPORT. Statements made of every command, one lemma per constructor (LAWS.json names the families). -/

namespace Sys2Proof.Laws.RowMatch

/-- A command's word has its row's fixed bits: word AND mask = match (30_encoding.md R83). -/
def Statement (i : Instr) : Prop := i.WellFormed → encode i &&& rowMask i = rowMatch i

theorem update (len : Nat) : Statement (.update len) := by
  intro h
  have : ∀ n : Fin 128, encode (.update n) &&& rowMask (.update n) = rowMatch (.update n) := by decide
  exact this ⟨len, by simp only [Instr.WellFormed] at h; omega⟩

theorem finalize : Statement .finalize := by intro _; decide

theorem reset : Statement .reset := by intro _; decide

theorem wipe : Statement .wipe := by intro _; decide

theorem hash (len : Nat) : Statement (.hash len) := by
  intro h
  have : ∀ n : Fin 128, encode (.hash n) &&& rowMask (.hash n) = rowMatch (.hash n) := by decide
  exact this ⟨len, by simp only [Instr.WellFormed] at h; omega⟩

end Sys2Proof.Laws.RowMatch
end

