-- ==== Sys2Proof/Laws/Encoding.lean ====
section
/-! SUPPORT. The fields of a command word as numbers, and decoding in terms of them (30_encoding.md R81, R84). -/

namespace Sys2Proof

theorem opcodeField_toNat (c : Word) : (opcodeField c).toNat = c.toNat % 2 ^ 8 := by simp [opcodeField]

theorem lenField_toNat (c : Word) : (lenField c).toNat = c.toNat / 2 ^ 8 % 2 ^ 7 := by
  simp [lenField, Nat.shiftRight_eq_div_pow]

theorem rsvdField_toNat (c : Word) : (rsvdField c).toNat = c.toNat / 2 ^ 15 := by
  simp only [rsvdField, BitVec.extractLsb'_toNat, Nat.shiftRight_eq_div_pow]
  have := c.isLt
  omega

theorem opcodeField_eq_iff (c : Word) (k : Nat) (hk : k < 2 ^ 8) :
    opcodeField c = BitVec.ofNat 8 k ↔ c.toNat % 2 ^ 8 = k := by
  rw [← opcodeField_toNat, ← BitVec.toNat_inj, BitVec.toNat_ofNat, Nat.mod_eq_of_lt hk]

theorem lenField_eq_zero_iff (c : Word) : lenField c = 0 ↔ c.toNat / 2 ^ 8 % 2 ^ 7 = 0 := by
  rw [← lenField_toNat, ← BitVec.toNat_inj]; rfl

theorem rsvdField_eq_zero_iff (c : Word) : rsvdField c = 0 ↔ c.toNat / 2 ^ 15 = 0 := by
  rw [← rsvdField_toNat, ← BitVec.toNat_inj]; rfl

/-- R84's decoding on the numbers in the three fields. -/
theorem decode_eq (c : Word) : decode c =
    if c.toNat / 2 ^ 15 ≠ 0 then .error .rsvdNonZero
    else if c.toNat % 2 ^ 8 = 1 then .ok (.update (c.toNat / 2 ^ 8 % 2 ^ 7))
    else if c.toNat % 2 ^ 8 = 2 then (if c.toNat / 2 ^ 8 % 2 ^ 7 ≠ 0 then .error .lenNonZero else .ok .finalize)
    else if c.toNat % 2 ^ 8 = 3 then (if c.toNat / 2 ^ 8 % 2 ^ 7 ≠ 0 then .error .lenNonZero else .ok .reset)
    else if c.toNat % 2 ^ 8 = 4 then (if c.toNat / 2 ^ 8 % 2 ^ 7 ≠ 0 then .error .lenNonZero else .ok .wipe)
    else if c.toNat % 2 ^ 8 = 5 then .ok (.hash (c.toNat / 2 ^ 8 % 2 ^ 7))
    else .error .reservedOpcode := by
  have op := opcodeField_eq_iff c
  have h1 := op 1 (by decide); have h2 := op 2 (by decide); have h3 := op 3 (by decide)
  have h4 := op 4 (by decide); have h5 := op 5 (by decide)
  simp only [decode, decodeNoOperand, ne_eq, rsvdField_eq_zero_iff, lenField_eq_zero_iff, lenField_toNat]
  exact if_congr Iff.rfl rfl <| if_congr h1 rfl <| if_congr h2 rfl <| if_congr h3 rfl <| if_congr h4 rfl <| if_congr h5 rfl rfl

/-- The number a command word is, from its LEN and OPCODE (R80). -/
theorem commandWord_toNat (len : Nat) (op : BitVec 8) (h : len ≤ 127) :
    (commandWord len op).toNat = len * 2 ^ 8 + op.toNat := by
  have := op.isLt
  simp only [commandWord, BitVec.toNat_append, BitVec.toNat_ofNat]
  rw [Nat.mod_eq_of_lt (show len < 2 ^ 7 by omega), Nat.zero_mod, Nat.zero_shiftLeft, Nat.zero_or,
    ← Nat.shiftLeft_add_eq_or_of_lt this, Nat.shiftLeft_eq]

end Sys2Proof
end

