-- ==== Sys2Proof/Laws/Ops.lean ====
section
/-! SUPPORT. What each shared operation can do, said once. -/

namespace Sys2Proof.Machine

/-- The check at a command start is the invariant between commands (60_exceptions.md R206, 10_state.md R44, R45). -/
theorem commandStartOk_iff (s : State) : commandStartOk s = true ↔ s.Inv := by
  by_cases h : s.fsm = .finalized <;> simp [commandStartOk, State.Inv, h, and_assoc]

theorem commandStartOk_false_iff (s : State) : commandStartOk s = false ↔ ¬s.Inv := by
  rw [← commandStartOk_iff, Bool.not_eq_true]

/-- A state that meets the invariant passes the check at a command start. -/
theorem commandStartOk_of_inv {s : State} (h : s.Inv) : commandStartOk s = true := (commandStartOk_iff s).2 h

/-- An engine that has absorbed a message meets the invariant. -/
theorem State.Absorbing.inv {m : List Byte} {s : State} (h : s.Absorbing m) : s.Inv := by
  obtain ⟨hf, hm, hc, hb, -⟩ := h
  exact ⟨by omega, by omega, fun _ => by omega, fun h => absurd h hf⟩

theorem atCommandStart_ok {s : State} (h : commandStartOk s = true) (f : State → Result) :
    atCommandStart s f = f s := by simp [atCommandStart, h]

theorem atCommandStart_fault {s : State} (h : commandStartOk s = false) (f : State → Result) :
    atCommandStart s f = .fault .invariantViolated := by simp [atCommandStart, h]

/-- If a command that is checked at its start answers next, the check held and the command itself answered it. -/
theorem atCommandStart_next {s t : State} {f : State → Result} (h : atCommandStart s f = .next t) :
    commandStartOk s = true ∧ f s = .next t := by
  unfold atCommandStart at h
  split at h
  · exact ⟨‹_›, h⟩
  · cases h

@[simp] theorem andThen_next (s : State) (k : State → Result) : andThen (.next s) k = k s := rfl
@[simp] theorem andThen_fault (e : Fault) (k : State → Result) : andThen (.fault e) k = .fault e := rfl
@[simp] theorem andThen_refused (e : Refusal) (k : State → Result) : andThen (.refused e) k = .refused e := rfl

theorem lenLegal_iff (len : Nat) : lenLegal len = true ↔ len ≤ 64 := by
  unfold lenLegal Config.maxChunk; exact decide_eq_true_iff

theorem lenLegal_false_iff (len : Nat) : lenLegal len = false ↔ 64 < len := by
  unfold lenLegal Config.maxChunk; rw [decide_eq_false_iff_not]; omega

/-- The Buffer after the chunk is appended (44_controller.md R172). -/
theorem appendedBuffer_getElem (n : Nat) (s : State) (k : Nat) (hk : k < 128) :
    (appendedBuffer n s)[k] =
      if h : s.bufLen ≤ k ∧ k < s.bufLen + n ∧ k - s.bufLen < 64 then dinByte s.din ⟨k - s.bufLen, h.2.2⟩
      else s.buf[k] := by
  simp [appendedBuffer]

/-- The Buffer after a block is taken from it (R172). -/
theorem shiftedBuffer_getElem (buf : Vector Byte 128) (k : Nat) (hk : k < 128) :
    (shiftedBuffer buf)[k] = if h : k < 64 then buf[64 + k] else buf[k] := by
  simp [shiftedBuffer]

/-- Absorb's loop does nothing while less than a block is buffered. -/
theorem drainLoop_of_lt {s : State} (n : Nat) (h : s.bufLen < 64) : drainLoop n s = s := by
  cases n with
  | zero => rfl
  | succ n => simp [drainLoop, show ¬ 64 ≤ s.bufLen by omega]

/-- Absorb's loop runs once when one block is buffered and not two (R172). -/
theorem drainLoop_of_ge {s : State} (h : 64 ≤ s.bufLen) (h' : s.bufLen < 128) :
    drainLoop (s.bufLen / 64) s = drainBlock s := by
  have hn : s.bufLen / 64 = 1 := by omega
  simp [hn, drainLoop, h]

/-- What Absorb can do (R172): it is refused, or it appends and compresses no block, or it appends and compresses one. -/
theorem absorb_cases (n : Nat) (s : State) (hn : n ≤ 64) (hb : s.bufLen ≤ 63) :
    (Config.maxMessageBytes < s.byteCount.toNat + n ∧ absorb n s = .refused .messageTooLong) ∨
    (s.byteCount.toNat + n ≤ Config.maxMessageBytes ∧ s.bufLen + n < 64 ∧ absorb n s = .next (appendChunk n s)) ∨
    (s.byteCount.toNat + n ≤ Config.maxMessageBytes ∧ 64 ≤ s.bufLen + n ∧
      absorb n s = .next (drainBlock (appendChunk n s))) := by
  unfold absorb
  split
  · exact .inl ⟨‹_›, rfl⟩
  · right
    have hle : s.byteCount.toNat + n ≤ Config.maxMessageBytes := by omega
    by_cases h : s.bufLen + n < 64
    · exact .inl ⟨hle, h, congrArg _ (drainLoop_of_lt (s := appendChunk n s) _ h)⟩
    · refine .inr ⟨hle, by omega, ?_⟩
      have := drainLoop_of_ge (s := appendChunk n s) (by simp; omega) (by simp; omega)
      simp only [this]

/-- The Buffer after PadTail's writes (41_preprocess.md R127). -/
theorem paddedBuffer_getElem (s : State) (k : Nat) (hk : k < 128) :
    (paddedBuffer s)[k] =
      if k < s.bufLen then s.buf[k]
      else if k = s.bufLen then 0x80
      else if k < 64 * tailBlocks s.bufLen - 8 then 0x00
      else if h : k < 64 * tailBlocks s.bufLen ∧ k - (64 * tailBlocks s.bufLen - 8) < 8 then
        (be64 (8 * s.byteCount))[k - (64 * tailBlocks s.bufLen - 8)]
      else s.buf[k] := by
  simp [paddedBuffer]

theorem tailBlocks_of_le {r : Nat} (h : r ≤ 55) : tailBlocks r = 1 := by simp [tailBlocks, h]

theorem tailBlocks_of_gt {r : Nat} (h : 55 < r) : tailBlocks r = 2 := by simp [tailBlocks, show ¬ r ≤ 55 by omega]

/-- PadTail folds its one or two tail blocks into HashState in order (R127). -/
theorem padTail_H (s : State) :
    (padTail s).H = hashBlocks s.H (((List.finRange 2).take (tailBlocks s.bufLen)).map (bufBlock (paddedBuffer s))) := by
  unfold padTail
  by_cases h : s.bufLen ≤ 55
  · rw [tailBlocks_of_le h]; rfl
  · rw [tailBlocks_of_gt (by omega)]; rfl

/-- One tail block: at most 55 bytes buffered (41_preprocess.md R122, R127). -/
theorem padTail_H_of_le {s : State} (h : s.bufLen ≤ 55) :
    (padTail s).H = hashBlocks s.H [bufBlock (paddedBuffer s) 0] := by
  rw [padTail_H, tailBlocks_of_le h]; rfl

/-- Two tail blocks: 56 bytes or more buffered (R122, R127). -/
theorem padTail_H_of_ge {s : State} (h : 56 ≤ s.bufLen) :
    (padTail s).H = hashBlocks s.H [bufBlock (paddedBuffer s) 0, bufBlock (paddedBuffer s) 1] := by
  rw [padTail_H, tailBlocks_of_gt (by omega)]; rfl

/-- Taking a block from the Buffer folds its first 64 bytes into HashState (44_controller.md R172). -/
theorem drainBlock_hashBlocks (s : State) : (drainBlock s).H = hashBlocks s.H [bufBlock s.buf 0] := rfl

theorem bufBlock_getElem (buf : Vector Byte 128) (q : Fin 2) (j : Nat) (h : j < 64) :
    (bufBlock buf q)[j] = buf[64 * q.val + j] := by
  simp [bufBlock]

end Sys2Proof.Machine
end

