-- ==== Sys2Proof/Laws/Step.lean ====
section
/-! SUPPORT. What each command, each access and one step can do, said once. -/

namespace Sys2Proof.Machine

/-- UPDATE, once the check at its start holds (44_controller.md R173, 60_exceptions.md R204). -/
theorem execUpdate_eq {s : State} (h : commandStartOk s = true) (len : Nat) :
    execUpdate len s =
      if 64 < len then .next { s with err := .badLen }
      else if s.fsm = .finalized then .next { s with err := .invalidState }
      else andThen (absorb len s) fun t => .next (finishOk { t with fsm := .updating }) := by
  rw [execUpdate, atCommandStart_ok h]
  exact if_congr (lenLegal_false_iff len) rfl rfl

/-- FINALIZE, once the check at its start holds (R174). -/
theorem execFinalize_eq {s : State} (h : commandStartOk s = true) :
    execFinalize s = if s.fsm = .finalized then .next (finishOk s) else .next (enterFinalized (padTail s)) := by
  rw [execFinalize, atCommandStart_ok h]

/-- RESET, once the check at its start holds (R175). -/
theorem execReset_eq {s : State} (h : commandStartOk s = true) : execReset s = .next (finishOk (init s)) := by
  rw [execReset, atCommandStart_ok h]

/-- WIPE, once the check at its start holds (R176). -/
theorem execWipe_eq {s : State} (h : commandStartOk s = true) :
    execWipe s = .next (finishOk (init (clearStorage s))) := by
  rw [execWipe, atCommandStart_ok h]

/-- HASH, once the check at its start holds (R177). -/
theorem execHash_eq {s : State} (h : commandStartOk s = true) (len : Nat) :
    execHash len s =
      if 64 < len then .next { s with err := .badLen }
      else andThen (absorb len (init s)) fun t => .next (enterFinalized (padTail t)) := by
  rw [execHash, atCommandStart_ok h]
  exact if_congr (lenLegal_false_iff len) rfl rfl

/-- A rejected word, once the check at its start holds (30_encoding.md R84). -/
theorem rejectCommand_eq {s : State} (h : commandStartOk s = true) :
    rejectCommand s = .next { s with err := .illegalCmd } := by
  rw [rejectCommand, atCommandStart_ok h, raiseError]

/-- If UPDATE answers next, it raised BAD_LEN, raised INVALID_STATE, or absorbed its chunk (44_controller.md R173). -/
theorem execUpdate_next {len : Nat} {s t : State} (h : execUpdate len s = .next t) :
    commandStartOk s = true ∧
      ((64 < len ∧ t = { s with err := .badLen }) ∨
       (len ≤ 64 ∧ s.fsm = .finalized ∧ t = { s with err := .invalidState }) ∨
       (len ≤ 64 ∧ s.fsm ≠ .finalized ∧ ∃ a, absorb len s = .next a ∧ t = finishOk { a with fsm := .updating })) := by
  obtain ⟨hok, h⟩ := atCommandStart_next h
  refine ⟨hok, ?_⟩
  split at h
  · rename_i hl
    exact .inl ⟨(lenLegal_false_iff len).1 hl, by simpa [raiseError] using h.symm⟩
  · rename_i hl
    have hl' : len ≤ 64 := (lenLegal_iff len).1 (by simpa using hl)
    split at h
    · exact .inr (.inl ⟨hl', ‹_›, by simpa [raiseError] using h.symm⟩)
    · refine .inr (.inr ⟨hl', ‹_›, ?_⟩)
      cases ha : absorb len s with
      | next a => exact ⟨a, rfl, by simpa [ha] using h.symm⟩
      | fault e => simp [ha] at h
      | refused e => simp [ha] at h

/-- If FINALIZE answers next, it only set ERR (FINALIZED before) or padded and compressed the tail (R174). -/
theorem execFinalize_next {s t : State} (h : execFinalize s = .next t) :
    commandStartOk s = true ∧
      ((s.fsm = .finalized ∧ t = finishOk s) ∨ (s.fsm ≠ .finalized ∧ t = enterFinalized (padTail s))) := by
  obtain ⟨hok, h⟩ := atCommandStart_next h
  refine ⟨hok, ?_⟩
  split at h
  · exact .inl ⟨‹_›, by simpa using h.symm⟩
  · exact .inr ⟨‹_›, by simpa using h.symm⟩

/-- If RESET answers next, it ran Init (R175). -/
theorem execReset_next {s t : State} (h : execReset s = .next t) :
    commandStartOk s = true ∧ t = finishOk (init s) := by
  obtain ⟨hok, h⟩ := atCommandStart_next h
  exact ⟨hok, by simpa using h.symm⟩

/-- If WIPE answers next, it cleared the storage and ran Init (R176). -/
theorem execWipe_next {s t : State} (h : execWipe s = .next t) :
    commandStartOk s = true ∧ t = finishOk (init (clearStorage s)) := by
  obtain ⟨hok, h⟩ := atCommandStart_next h
  exact ⟨hok, by simpa using h.symm⟩

/-- If HASH answers next, it raised BAD_LEN, or started afresh, absorbed its chunk and padded (R177). -/
theorem execHash_next {len : Nat} {s t : State} (h : execHash len s = .next t) :
    commandStartOk s = true ∧
      ((64 < len ∧ t = { s with err := .badLen }) ∨
       (len ≤ 64 ∧ ∃ a, absorb len (init s) = .next a ∧ t = enterFinalized (padTail a))) := by
  obtain ⟨hok, h⟩ := atCommandStart_next h
  refine ⟨hok, ?_⟩
  split at h
  · rename_i hl
    exact .inl ⟨(lenLegal_false_iff len).1 hl, by simpa [raiseError] using h.symm⟩
  · rename_i hl
    refine .inr ⟨(lenLegal_iff len).1 (by simpa using hl), ?_⟩
    cases ha : absorb len (init s) with
    | next a => exact ⟨a, rfl, by simpa [ha] using h.symm⟩
    | fault e => simp [ha] at h
    | refused e => simp [ha] at h

/-- If a rejected word answers next, only ERR changed (30_encoding.md R84). -/
theorem rejectCommand_next {s t : State} (h : rejectCommand s = .next t) :
    commandStartOk s = true ∧ t = { s with err := .illegalCmd } := by
  obtain ⟨hok, h⟩ := atCommandStart_next h
  exact ⟨hok, by simpa [raiseError] using h.symm⟩

/-- The register at each Word of the window is the one whose offset that Word has (10_state.md R34). -/
theorem regAt_offset (r : Reg) : ∃ h : r.offset / 4 < 32, regAt ⟨r.offset / 4, h⟩ = r := by
  cases r with
  | cmd => exact ⟨by decide, rfl⟩
  | status => exact ⟨by decide, rfl⟩
  | byteCountLo => exact ⟨by decide, rfl⟩
  | byteCountHi => exact ⟨by decide, rfl⟩
  | reserved i => revert i; decide
  | digest i => revert i; decide
  | din j => revert j; decide

theorem offset_regAt (k : Fin 32) : (regAt k).offset = 4 * k.val := by revert k; decide

/-- A 32-bit access at a register's offset reaches that register. -/
@[simp] theorem accessTarget_offset (r : Reg) : accessTarget r.offset 4 = .ok r := by
  obtain ⟨h, hr⟩ := regAt_offset r
  have hlt : r.offset < Config.windowBytes := by unfold Config.windowBytes; omega
  have hal : r.offset % 4 = 0 := by
    cases r <;> simp only [Reg.offset] <;> omega
  unfold accessTarget
  rw [dif_pos hlt]
  simp only [ne_eq, not_true_eq_false, if_false, hal]
  exact congrArg _ hr

/-- What an access reaches, case by case (20_memory.md R62 to R64). -/
theorem accessTarget_cases (off width : Nat) :
    (Config.windowBytes ≤ off ∧ accessTarget off width = .error .outsideWindow) ∨
    (off < Config.windowBytes ∧ width ≠ 4 ∧ accessTarget off width = .error .accessWidth) ∨
    (off < Config.windowBytes ∧ width = 4 ∧ off % 4 ≠ 0 ∧ accessTarget off width = .error .misaligned) ∨
    (width = 4 ∧ ∃ r : Reg, off = r.offset ∧ accessTarget off width = .ok r) := by
  unfold accessTarget
  split
  · rename_i h
    right
    split
    · exact .inl ⟨h, ‹_›, rfl⟩
    · rename_i hw
      right
      split
      · exact .inl ⟨h, by omega, ‹_›, rfl⟩
      · refine .inr ⟨by omega, _, ?_, rfl⟩
        rw [offset_regAt]
        simp only
        omega
  · exact .inl ⟨by omega, rfl⟩

theorem step_of_nil {s : State} (h : s.pending = []) : step s = .next s := by simp [step, h]

theorem step_of_cons {s : State} {e : HostEvent} {rest : List HostEvent} (h : s.pending = e :: rest) :
    step s = perform e { s with pending := rest } := by simp [step, h]

/-- A command word that decodes runs its command. -/
theorem perform_commandWrite {c : Word} {i : Instr} (s : State) (h : decode c = .ok i) :
    perform (commandWrite c) s = exec i s := by
  have : accessTarget 0x000 4 = .ok .cmd := accessTarget_offset .cmd
  simp [perform, commandWrite, this, writeReg, runCommand, h]

/-- A word that decodes to no command is rejected. -/
theorem perform_illegalWrite {c : Word} {e : DecodeError} (s : State) (h : decode c = .error e) :
    perform (commandWrite c) s = rejectCommand s := by
  have : accessTarget 0x000 4 = .ok .cmd := accessTarget_offset .cmd
  simp [perform, commandWrite, this, writeReg, runCommand, h]

/-- What one host event can do when it answers next: it ran a command, was rejected as a command, stored to DIN, was ignored, read a
register, or reset the engine (20_memory.md R66). -/
theorem perform_next {e : HostEvent} {s t : State} (h : perform e s = .next t) :
    (∃ i, exec i s = .next t) ∨ rejectCommand s = .next t ∨ (∃ (j : Fin 16) (v : Word), t = { s with din := s.din.set j v }) ∨
      t = s ∨ (∃ r, t = { s with reads := s.reads ++ [readReg r s] }) ∨ (e = .powerOnReset ∧ t = powerOn s) := by
  cases e with
  | memRead off width =>
    simp only [perform] at h
    split at h
    · rename_i r _
      exact .inr (.inr (.inr (.inr (.inl ⟨r, by simpa using h.symm⟩))))
    · cases h
  | memWrite off width v =>
    simp only [perform] at h
    split at h
    · rename_i r _
      cases r with
      | cmd =>
        simp only [writeReg, runCommand] at h
        split at h
        · exact .inl ⟨_, h⟩
        · exact .inr (.inl h)
      | din j => exact .inr (.inr (.inl ⟨j, v, by simpa [writeReg] using h.symm⟩))
      | status => exact .inr (.inr (.inr (.inl (by simpa [writeReg] using h.symm))))
      | byteCountLo => exact .inr (.inr (.inr (.inl (by simpa [writeReg] using h.symm))))
      | byteCountHi => exact .inr (.inr (.inr (.inl (by simpa [writeReg] using h.symm))))
      | reserved i => exact .inr (.inr (.inr (.inl (by simpa [writeReg] using h.symm))))
      | digest i => exact .inr (.inr (.inr (.inl (by simpa [writeReg] using h.symm))))
    · cases h
  | powerOnReset => exact .inr (.inr (.inr (.inr (.inr ⟨rfl, by simpa [perform] using h.symm⟩))))

end Sys2Proof.Machine
end

