-- ==== Sys2Proof/Tests/Slice0.lean ====
section
/-! SUPPORT. Tests of the model against the values spec/ prints (95_test_vectors.md, section named in each comment), and for every
statement with hypotheses a witness: a concrete state and operands that meet all of them, at the edges of their ranges. -/

namespace Sys2Proof.Tests

open Sys2Proof.Machine

/-! ## Helpers -/

/-- An engine with n zero bytes buffered and `count` bytes counted, UPDATING. -/
def buffered (n count : Nat) : State :=
  { State.reset with bufLen := n, byteCount := BitVec.ofNat 64 count, fsm := .updating }

/-- A FINALIZED engine. -/
def finalized : State := { State.reset with fsm := .finalized, byteCount := 3 }

/-- The engine with "abc" in DIN (section 2.7: DIN0 = 0x61626300). -/
def loadedAbc : State := { State.reset with din := State.reset.din.set 0 0x61626300 }

/-- The engine after "abc" was appended (section 2.7, UPDATE 3 from power-on). -/
def absorbedAbc : State :=
  { loadedAbc with buf := ((loadedAbc.buf.set 0 0x61).set 1 0x62).set 2 0x63, bufLen := 3, byteCount := 3, fsm := .updating }

/-- The engine whose next event writes a word to CMD. -/
def atWord (c : Word) (s : State) : State := { s with pending := [commandWrite c] }

/-- What a step leaves for a test to look at. -/
def after {α : Type} (r : Result) (f : State → α) : Option α :=
  match r with
  | .next t => some (f t)
  | .fault _ => none
  | .refused _ => none

/-- STATUS after a word is written to CMD. -/
def statusAfter (c : Word) (s : State) : Option Word := after (step (atWord c s)) statusWord

/-- The engine that has absorbed n zero bytes. -/
def absorbedZeros (n : Nat) : State :=
  { State.reset with
    H := hashBlocks IV (parseBlocks (List.replicate n 0))
    bufLen := n % 64
    byteCount := BitVec.ofNat 64 n
    fsm := .updating }

/-! ## WellFormed refuses an ill-formed term (30_encoding.md R82: LEN is 0 to 127) -/

theorem test_wellFormed_update_refuses_128 : (Instr.update 128).wellFormed = false ∧ ¬(Instr.update 128).WellFormed := by decide
theorem test_wellFormed_hash_refuses_128 : (Instr.hash 128).wellFormed = false ∧ ¬(Instr.hash 128).WellFormed := by decide
theorem test_wellFormed_admits_127 : (Instr.update 127).wellFormed = true ∧ (Instr.hash 127).WellFormed := by decide

/-! ## Decoding: words written out bit by bit from R80 (RSVD 31:15, LEN 14:8, OPCODE 7:0) -/

theorem test_decode_update : decode 0b00000000000000000100000000000001 = .ok (.update 64) := by decide
theorem test_decode_finalize : decode 0b00000000000000000000000000000010 = .ok .finalize := by decide
theorem test_decode_reset : decode 0b00000000000000000000000000000011 = .ok .reset := by decide
theorem test_decode_wipe : decode 0b00000000000000000000000000000100 = .ok .wipe := by decide
theorem test_decode_hash : decode 0b00000000000000000000001100000101 = .ok (.hash 3) := by decide
theorem test_decode_hash_every_len_bit : decode 0b00000000000000000111111100000101 = .ok (.hash 127) := by decide
theorem test_decode_rejects_rsvd_bit_15 : decode 0b00000000000000001000000000000001 = .error .rsvdNonZero := by decide
theorem test_decode_rejects_rsvd_bit_31 : decode 0b10000000000000000000000000000001 = .error .rsvdNonZero := by decide
theorem test_decode_rejects_opcode_0 : decode 0b00000000000000000000000000000000 = .error .reservedOpcode := by decide
theorem test_decode_rejects_opcode_6 : decode 0b00000000000000000000000000000110 = .error .reservedOpcode := by decide
theorem test_decode_rejects_opcode_FF : decode 0b00000000000000000000000011111111 = .error .reservedOpcode := by decide
theorem test_decode_rejects_len_on_finalize : decode 0b00000000000000000000000100000010 = .error .lenNonZero := by decide
theorem test_decode_rejects_len_on_reset : decode 0b00000000000000000111111100000011 = .error .lenNonZero := by decide
theorem test_decode_rejects_len_on_wipe : decode 0b00000000000000000000000100000100 = .error .lenNonZero := by decide
theorem test_encode_words : encode (.update 3) = 0x00000301 ∧ encode .finalize = 0x00000002 ∧ encode .reset = 0x00000003 ∧
    encode .wipe = 0x00000004 ∧ encode (.hash 3) = 0x00000305 := by decide
theorem test_decodeTableWord : decodeTableWord 32 0x00004001 = some (.update 64) ∧ decodeTableWord 8 0xFF05 = some (.hash 0) ∧
    decodeTableWord 32 0x00000006 = none ∧ decodeTableWord 33 0x00000003 = none := by decide

/-! ## The datapath (sections 1.4, 1.5, 2.1, 2.2, 2.3, 2.5) -/

theorem test_rotr : rotr 0x80000000 1 = 0x40000000 ∧ rotr 0x12345678 8 = 0x78123456 ∧ rotr 0x12345678 31 = 0x2468ACF0 ∧
    rotr 0x12345678 32 = 0x12345678 ∧ shr 0xFFFFFFFF 10 = 0x003FFFFF := by decide
theorem test_ch_maj : ch 0xFF00FF00 0x12345678 0x9ABCDEF0 = 0x12BC56F0 ∧ maj 0xF0F0F0F0 0xFF00FF00 0xCCCCCCCC = 0xFCC0FCC0 := by
  decide
theorem test_sigmas : bigSigma0 0x6A09E667 = 0xCE20B47E ∧ bigSigma1 0x510E527F = 0x3587272B ∧
    smallSigma0 0x12345678 = 0xE7FCE6EE ∧ smallSigma1 0x12345678 = 0xA1F78649 := by decide
theorem test_addMod32 : addMod32 [0xFFFFFFFF, 1] = 0 ∧
    addMod32 [0xFFFFFFFF, 0xFFFFFFFF, 0xFFFFFFFF, 0xFFFFFFFF, 0xFFFFFFFF] = 0xFFFFFFFB := by decide
theorem test_pad_abc : (parseBlocks (pad [0x61, 0x62, 0x63])).map parseWords =
    [#v[0x61626380, 0, 0, 0, 0, 0, 0, 0, 0, 0, 0, 0, 0, 0, 0, 0x00000018]] := by decide +kernel
theorem test_pad_56_bytes_takes_two_blocks : ((parseBlocks (pad (List.replicate 56 0))).map fun B => (parseWords B)[14]) =
    [0x80000000, 0x00000000] := by decide +kernel
theorem test_expand_all_ones : (expand (Vector.replicate 16 0xFFFFFFFF))[18] = 0x20099BE4 ∧
    (expand (Vector.replicate 16 0xFFFFFFFF))[63] = 0x4BCEAF09 := by decide +kernel
theorem test_round_0_of_abc : compressionRound 0 IV 0x61626380 =
    #v[0x5D6AEBCD, 0x6A09E667, 0xBB67AE85, 0x3C6EF372, 0xFA2A4622, 0x510E527F, 0x9B05688C, 0x1F83D9AB] := by decide +kernel
theorem test_compress_zero_schedule : (compressBlock IV (Vector.replicate 64 0)).1 =
    #v[0xDA5698BE, 0x17B9B469, 0x62335799, 0x779FBECA, 0x8CE5D491, 0xC0D26243, 0xBAFEF9EA, 0x1837A9D8] := by decide +kernel
theorem test_sha256_abc : sha256 [0x61, 0x62, 0x63] =
    #v[0xBA7816BF, 0x8F01CFEA, 0x414140DE, 0x5DAE2223, 0xB00361A3, 0x96177A9C, 0xB410FF61, 0xF20015AD] := by decide +kernel
theorem test_sha256_empty : sha256 [] =
    #v[0xE3B0C442, 0x98FC1C14, 0x9AFBF4C8, 0x996FB924, 0x27AE41E4, 0x649B934C, 0xA495991B, 0x7852B855] := by decide +kernel

/-! ## One step per command, at most two tests each (section 2.7) -/

theorem test_update_appends : after (step (atWord 0x00000301 loadedAbc)) (fun t => (statusWord t, t.byteCount, t.buf[2])) =
    some (0x00000301, 3, 0x63) := by decide +kernel
theorem test_update_64_compresses : after (step (atWord 0x00004001 { State.reset with din := Vector.replicate 16 0x61616161 }))
    (fun t => (statusWord t, t.byteCount, t.H[0])) = some (0x00000001, 64, 0xDF5BB81C) := by decide +kernel
theorem test_finalize_abc : after (step (atWord 0x00000002 absorbedAbc)) (fun t => (statusWord t, t.byteCount, readReg (.digest 0) t)) =
    some (0x00000002, 3, 0xBA7816BF) := by decide +kernel
theorem test_finalize_two_tail_blocks : after (step (atWord 0x00000002 (buffered 56 56))) (fun t => (statusWord t, t.H)) =
    some (0x00000002, sha256 (List.replicate 56 0)) := by decide +kernel
theorem test_reset_hides_the_digest : after (step (atWord 0x00000003 finalized))
    (fun t => (statusWord t, t.byteCount, readReg (.digest 0) t)) = some (0x00000000, 0, 0x00000000) := by decide +kernel
theorem test_wipe_zeroes_din : after (step (atWord 0x00000004 absorbedAbc)) (fun t => (statusWord t, t.byteCount, t.din[0], t.buf[0])) =
    some (0x00000000, 0, 0x00000000, 0x00) := by decide +kernel
theorem test_hash_ignores_what_is_buffered : after (step (atWord 0x00000305 absorbedAbc))
    (fun t => (statusWord t, t.byteCount, readReg (.digest 7) t)) = some (0x00000002, 3, 0xF20015AD) := by decide +kernel
theorem test_hash_65_keeps_the_state : step (atWord 0x00004105 finalized) = .next { finalized with err := .badLen } := by rfl

/-! ## Errors (section 2.6), register accesses (section 2.9), stops -/

theorem test_error_priority : statusAfter 0x00004101 finalized = some 0x00000032 ∧ statusAfter 0x00010001 finalized = some 0x00000022 ∧
    statusAfter 0x00014101 finalized = some 0x00000022 ∧ statusAfter 0x00000301 finalized = some 0x00000012 ∧
    statusAfter 0x00000106 State.reset = some 0x00000020 := by decide +kernel
theorem test_domain_limit : after (exec (.update 9) (buffered 54 (2 ^ 61 - 10))) (fun t => (readReg .byteCountHi t, readReg .byteCountLo t)) =
    some (0x1FFFFFFF, 0xFFFFFFFF) := by decide +kernel
theorem test_past_domain_limit : exec (.update 10) (buffered 54 (2 ^ 61 - 10)) = .refused .messageTooLong := by rfl
theorem test_invariant_violated : exec .finalize (buffered 64 64) = .fault .invariantViolated := by rfl
theorem test_fill_length_off_the_counter : exec .finalize (buffered 3 4) = .fault .invariantViolated := by rfl
theorem test_every_register_reads_zero_after_power_on : ∀ k : Fin 32, readReg (regAt k) State.reset = 0 := by decide +kernel
theorem test_din15_stores : after (perform (.memWrite 0x07C 4 0xDEADBEEF) State.reset) (readReg (.din 15)) = some 0xDEADBEEF := by
  decide +kernel
theorem test_status_write_is_ignored : perform (.memWrite 0x004 4 0xFFFFFFFF) State.reset = .next State.reset := by rfl
theorem test_refused_accesses : perform (.memRead 0x041 1) State.reset = .refused .accessWidth ∧
    perform (.memRead 0x042 4) State.reset = .refused .misaligned ∧
    perform (.memRead 0x080 4) State.reset = .refused .outsideWindow := ⟨rfl, rfl, rfl⟩
theorem test_sha256_expands_to : (Line.sha256 [0x61, 0x62, 0x63]).events.take 4 =
    [.memWrite 0x000 4 0x00000003, .memWrite 0x040 4 0x61626300, .memWrite 0x000 4 0x00000301, .memWrite 0x000 4 0x00000002] := by
  decide +kernel

/-! ## Witnesses -/

theorem witness_DecodeOfEncodeIsTheCommand :
    (Instr.update 0).WellFormed ∧ (Instr.update 127).WellFormed ∧ Instr.finalize.WellFormed ∧ Instr.reset.WellFormed ∧
      Instr.wipe.WellFormed ∧ (Instr.hash 0).WellFormed ∧ (Instr.hash 127).WellFormed := by decide

theorem witness_EncodeOfDecodedWordIsTheWord : decode 0x00007F01 = .ok (.update 127) ∧ decode 0x00000004 = .ok .wipe := by decide

theorem witness_WordSelectsTheRowItMatches :
    (0x00007F01 : Word) &&& 0xFFFF80FF = 0x00000001 ∧ (0x00000001 : Word) &&& 0xFFFF80FF = 0x00000001 ∧
      (0x00000002 : Word) &&& 0xFFFFFFFF = 0x00000002 ∧ (0x00000003 : Word) &&& 0xFFFFFFFF = 0x00000003 ∧
      (0x00000004 : Word) &&& 0xFFFFFFFF = 0x00000004 ∧ (0x00007F05 : Word) &&& 0xFFFF80FF = 0x00000005 ∧
      ∀ c ∈ ([0x00000000, 0x00000006, 0x00000102, 0x00008001, 0xFFFFFFFF] : List Word),
        c &&& 0xFFFF80FF ≠ 0x00000001 ∧ c ≠ 0x00000002 ∧ c ≠ 0x00000003 ∧ c ≠ 0x00000004 ∧ c &&& 0xFFFF80FF ≠ 0x00000005 := by
  refine ⟨by decide, by decide, by decide, by decide, by decide, by decide, ?_⟩
  intro c hc
  simp only [List.mem_cons, List.not_mem_nil, or_false] at hc
  rcases hc with rfl | rfl | rfl | rfl | rfl <;> decide

theorem witness_StepRunsTheDecodedCommand :
    (atWord 0x00000003 State.reset).pending = [.memWrite 0x000 4 0x00000003] ∧ decode 0x00000003 = .ok .reset := by decide

theorem witness_EngineWithoutEventHoldsItsState : State.reset.pending = [] := rfl

theorem witness_FetchedTableWordRuns : decodeTableWord 32 0x00004005 = some (.hash 64) := by decide

/-- Every clause: its word and its state (the last one is near the end of the counter's domain). -/
theorem witness_CommandErrorsInPriorityOrder :
    (∀ s ∈ [State.reset, buffered 63 63, finalized, buffered 63 (2 ^ 61 - 1)],
      s.Inv ∧
        (atWord 0x00008001 s).pending = .memWrite 0x000 4 0x00008001 :: []) ∧
    (0x00008001 : Word).toNat / 2 ^ 15 ≠ 0 ∧
    (∀ c ∈ ([0x00000000, 0x00000006, 0x000000FF] : List Word),
      c.toNat / 2 ^ 15 = 0 ∧ (c.toNat % 2 ^ 8 = 0 ∨ 6 ≤ c.toNat % 2 ^ 8)) ∧
    (∀ c ∈ ([0x00000102, 0x00007F03, 0x00000104] : List Word), c.toNat / 2 ^ 15 = 0 ∧
      (c.toNat % 2 ^ 8 = 2 ∨ c.toNat % 2 ^ 8 = 3 ∨ c.toNat % 2 ^ 8 = 4) ∧ c.toNat / 2 ^ 8 % 2 ^ 7 ≠ 0) ∧
    (∀ c ∈ ([0x00004101, 0x00007F01, 0x00004105] : List Word), c.toNat / 2 ^ 15 = 0 ∧
      (c.toNat % 2 ^ 8 = 1 ∨ c.toNat % 2 ^ 8 = 5) ∧ 64 < c.toNat / 2 ^ 8 % 2 ^ 7) ∧
    (∀ c ∈ ([0x00000001, 0x00000101, 0x00004001] : List Word), c.toNat / 2 ^ 15 = 0 ∧ c.toNat % 2 ^ 8 = 1 ∧
      c.toNat / 2 ^ 8 % 2 ^ 7 ≤ 64) ∧
    finalized.fsm = .finalized ∧ (buffered 63 (2 ^ 61 - 1)).fsm ≠ .finalized ∧
    Config.maxMessageBytes < (buffered 63 (2 ^ 61 - 1)).byteCount.toNat + 1 ∧
    (∀ c ∈ ([0x00000002, 0x00000003, 0x00000004] : List Word), c.toNat / 2 ^ 15 = 0 ∧ c.toNat / 2 ^ 8 % 2 ^ 7 = 0) ∧
    (0x00004005 : Word).toNat / 2 ^ 15 = 0 ∧ (0x00004005 : Word).toNat % 2 ^ 8 = 5 ∧
      (0x00004005 : Word).toNat / 2 ^ 8 % 2 ^ 7 ≤ 64 := by
  refine ⟨by decide, by decide, ?_, ?_, ?_, ?_, by decide, by decide, by decide, ?_, by decide, by decide, by decide⟩ <;>
    · intro c hc
      simp only [List.mem_cons, List.not_mem_nil, or_false] at hc
      rcases hc with rfl | rfl | rfl <;> decide

theorem witness_OverLengthOperandRaisesBadLen :
    finalized.Inv ∧ 64 < 65 ∧ 64 < 127 := by decide

theorem witness_MessagePastDomainLimitIsRefused :
    (buffered 63 (2 ^ 61 - 1)).Inv ∧
      (buffered 63 (2 ^ 61 - 1)).fsm ≠ .finalized ∧ exec (.update 1) (buffered 63 (2 ^ 61 - 1)) = .refused .messageTooLong ∧
      ¬2 ^ 61 - 1 < (buffered 63 (2 ^ 61 - 1)).byteCount.toNat + 0 := by
  exact ⟨by decide, by decide, rfl, by decide⟩

theorem witness_CommandInViolatedStateFaults :
    64 ≤ (buffered 64 64).bufLen ∧ Config.maxMessageBytes < (buffered 0 (2 ^ 61)).byteCount.toNat ∧
      ((buffered 3 4).fsm ≠ .finalized ∧ (buffered 3 4).bufLen ≠ (buffered 3 4).byteCount.toNat % 64) ∧
      (let s : State := { finalized with bufLen := 3 }
       s.fsm = .finalized ∧ s.bufLen ≠ 0) ∧
      decode 0x00000006 = .error .reservedOpcode ∧
      (atWord 0x00000006 (buffered 64 64)).pending = .memWrite 0x000 4 0x00000006 :: [] := by decide

theorem witness_EveryCommandOverwritesErr :
    (∃ t, step { State.reset with pending := [.memRead 0x004 4] } = .next t) ∧
    (∃ t, step { State.reset with pending := [.memWrite 0x07C 4 1] } = .next t) ∧
    (∃ t, step { State.reset with pending := [.powerOnReset] } = .next t) ∧ (0x07C : Nat) ≠ 0x000 ∧
    (∃ t, exec .reset State.reset = .next t) ∧ exec (.update 65) State.reset = .next { State.reset with err := .badLen } ∧
    exec (.update 64) finalized = .next { finalized with err := .invalidState } ∧
    (∃ t, exec .finalize State.reset = .next t) ∧ (∃ t, exec .wipe State.reset = .next t) ∧ 127 ≤ 127 ∧
    (∃ t, exec (.update 127) State.reset = .next t) ∧ (∃ t, exec (.hash 127) finalized = .next t) ∧
    decode 0x00000006 = .error .reservedOpcode ∧ ∃ t, perform (commandWrite 0x00000006) finalized = .next t :=
  ⟨⟨_, rfl⟩, ⟨_, rfl⟩, ⟨_, rfl⟩, by decide, ⟨_, rfl⟩, rfl, rfl, ⟨_, rfl⟩, ⟨_, rfl⟩, by decide, ⟨_, rfl⟩, ⟨_, rfl⟩, by decide, ⟨_, rfl⟩⟩

theorem witness_ResetReturnsToReady :
    (buffered 63 (2 ^ 61 - 1)).Inv ∧
      (0x00000103 : Word).toNat % 2 ^ 8 = 3 ∧ (0x00000103 : Word) ≠ 0x00000003 := by decide

theorem witness_WipeClearsStorageAndReturnsToReady :
    absorbedAbc.Inv ∧
      (0x80000004 : Word).toNat % 2 ^ 8 = 4 ∧ (0x80000004 : Word) ≠ 0x00000004 := by decide

theorem witness_FinalizedEngineKeepsItsDigest :
    finalized.Inv ∧ finalized.fsm = .finalized ∧ 0 ≤ 64 ∧ 64 ≤ 64 ∧
      Reg.digest 0 ≠ .status := by decide

/-- Each clause: FINALIZED; past the domain; nothing buffered and no byte; 63 buffered and 1 byte; 63 buffered and 64 bytes. -/
theorem witness_UpdateAppendsChunkAndCompressesFullBlock :
    (∀ s ∈ [finalized, State.reset, buffered 63 63, buffered 63 (2 ^ 61 - 1)],
      s.Inv) ∧
    finalized.fsm = .finalized ∧
    (buffered 63 (2 ^ 61 - 1)).fsm ≠ .finalized ∧ Config.maxMessageBytes < (buffered 63 (2 ^ 61 - 1)).byteCount.toNat + 1 ∧
    State.reset.fsm ≠ .finalized ∧ State.reset.byteCount.toNat + 0 ≤ Config.maxMessageBytes ∧ State.reset.bufLen + 0 < 64 ∧
    (buffered 63 63).byteCount.toNat + 1 ≤ Config.maxMessageBytes ∧ 64 ≤ (buffered 63 63).bufLen + 1 ∧
    (buffered 63 63).byteCount.toNat + 64 ≤ Config.maxMessageBytes ∧ (buffered 63 63).bufLen + 64 < 128 ∧
    64 < 127 ∧ (0x00008001 : Word).toNat % 2 ^ 8 = 1 ∧ (0x00008001 : Word).toNat / 2 ^ 15 ≠ 0 := by decide

theorem witness_FullChunkIntoEmptyBufferIsTheBlock :
    State.reset.Inv ∧ State.reset.bufLen = 0 ∧ State.reset.fsm ≠ .finalized ∧ State.reset.byteCount.toNat + 64 ≤ Config.maxMessageBytes := by decide

/-- Buffers of 0, 55 (one tail block), 56 and 63 bytes (two), and a FINALIZED engine. -/
theorem witness_FinalizePadsAndCompressesTheTail :
    (∀ s ∈ [buffered 0 0, buffered 55 55, buffered 56 56, buffered 63 63, finalized],
      s.Inv) ∧
    (buffered 55 55).fsm ≠ .finalized ∧ (buffered 55 55).bufLen ≤ 55 ∧ 56 ≤ (buffered 56 56).bufLen ∧ finalized.fsm = .finalized ∧
    (0x00000102 : Word).toNat % 2 ^ 8 = 2 ∧ (0x00000102 : Word) ≠ 0x00000002 := by decide

theorem witness_HashIsResetUpdateFinalize :
    (buffered 63 (2 ^ 61 - 1)).Inv ∧ 0 ≤ 64 ∧ 64 ≤ 64 := by
  decide

theorem witness_ControllerTransitions :
    (∀ s ∈ [State.reset, buffered 63 63, finalized], s.Inv) ∧
    (buffered 63 63).fsm ≠ .finalized ∧ (buffered 63 63).byteCount.toNat + 64 ≤ Config.maxMessageBytes ∧ finalized.fsm = .finalized ∧
    64 < 65 ∧ decode 0x00008001 = .error .rsvdNonZero ∧
    exec .reset finalized = .next (finishOk (init finalized)) ∧ (finishOk (init finalized)).fsm ≠ .finalized := by
  refine ⟨by decide, by decide, by decide, by decide, by decide, by decide, rfl, by decide⟩

theorem witness_FinalizedEngineIsImmutable :
    finalized.fsm = .finalized ∧ (atWord 0x00000301 finalized).pending = .memWrite 0x000 4 0x00000301 :: [] ∧
      decode 0x00000301 ≠ .ok .reset ∧ decode 0x00000301 ≠ .ok .wipe ∧ (∀ len ≤ 64, decode 0x00000301 ≠ .ok (.hash len)) ∧
      (∀ len ≤ 64, decode 0x00004105 ≠ .ok (.hash len)) ∧
      step (atWord 0x00000301 finalized) = .next { finalized with err := .invalidState } := by
  refine ⟨by decide, by decide, by decide, by decide, by decide, by decide, rfl⟩

theorem witness_CommandsChangeDinOnlyByWipe :
    Instr.reset ≠ .wipe ∧ (∃ t, exec .reset absorbedAbc = .next t) ∧ (∃ t, exec .wipe absorbedAbc = .next t) ∧
      dinByte absorbedAbc.din ⟨0, by decide⟩ = 0x61 ∧ dinByte absorbedAbc.din ⟨63, by decide⟩ = 0x00 := by
  refine ⟨by decide, ⟨_, rfl⟩, ⟨_, rfl⟩, by decide, by decide⟩

/-- Another DIN whose bytes 0 and 1 are those of "abc" and whose byte 2 is not. -/
theorem witness_DinBytesBeyondLenAreIgnored :
    2 ≤ 64 ∧ (∀ j : Fin 64, j.val < 2 → dinByte (Vector.replicate 16 0x6162FFFF) j = dinByte loadedAbc.din j) ∧
      dinByte (Vector.replicate 16 0x6162FFFF) 2 ≠ dinByte loadedAbc.din 2 := by decide

/-- Each clause: no event, reset event, another event, rejected word, and every command at the edges of its ranges. -/
theorem witness_HashStateChangesOnlyByInitAndCompression :
    State.reset.pending = [] ∧
    (∃ t, step { finalized with pending := [.powerOnReset] } = .next t) ∧
    (∀ c, HostEvent.memRead 0x004 4 ≠ .memWrite 0x000 4 c) ∧ HostEvent.memRead 0x004 4 ≠ .powerOnReset ∧
    (∃ t, step { finalized with pending := [.memRead 0x004 4] } = .next t) ∧
    (∃ t, step (atWord 0x00000006 finalized) = .next t) ∧ decode 0x00000006 = .error .reservedOpcode ∧
    (∃ t, step (atWord 0x00000003 finalized) = .next t) ∧ (∃ t, step (atWord 0x00000004 finalized) = .next t) ∧
    (∃ t, step (atWord 0x00000002 finalized) = .next t) ∧ (∃ t, step (atWord 0x00000002 (buffered 55 55)) = .next t) ∧
    (∃ t, step (atWord 0x00000002 (buffered 56 56)) = .next t) ∧
    (∃ t, step (atWord 0x00004101 State.reset) = .next t) ∧ (∃ t, step (atWord 0x00000101 finalized) = .next t) ∧
    (∃ t, step (atWord 0x00000001 (buffered 63 63)) = .next t) ∧ (∃ t, step (atWord 0x00000101 (buffered 63 63)) = .next t) ∧
    decode 0x00000101 = .ok (.update 1) ∧ (buffered 63 63).fsm ≠ .finalized ∧ 64 ≤ (buffered 63 63).bufLen + 1 ∧
    (∃ t, step (atWord 0x00004105 finalized) = .next t) ∧ (∃ t, step (atWord 0x00003705 finalized) = .next t) ∧
    (∃ t, step (atWord 0x00003805 finalized) = .next t) ∧ (∃ t, step (atWord 0x00004005 finalized) = .next t) ∧
    decode 0x00003705 = .ok (.hash 55) ∧ decode 0x00003805 = .ok (.hash 56) ∧ decode 0x00004005 = .ok (.hash 64) :=
  ⟨rfl, ⟨_, rfl⟩, (fun _ h => by cases h), by decide, ⟨_, rfl⟩, ⟨_, rfl⟩, by decide, ⟨_, rfl⟩, ⟨_, rfl⟩, ⟨_, rfl⟩, ⟨_, rfl⟩, ⟨_, rfl⟩,
    ⟨_, rfl⟩, ⟨_, rfl⟩, ⟨_, rfl⟩, ⟨_, rfl⟩, by decide, by decide, by decide, ⟨_, rfl⟩, ⟨_, rfl⟩, ⟨_, rfl⟩, ⟨_, rfl⟩, by decide,
    by decide, by decide⟩

theorem witness_StatusReadsItsFields :
    ({ buffered 63 63 with pending := [.memRead 0x004 4] } : State).pending = .memRead 0x004 4 :: [] ∧ (buffered 63 63).bufLen ≤ 63 ∧
      statusWord (buffered 63 63) = 0x00003F01 ∧ (buffered 127 127).bufLen ≤ 127 ∧
      ({ State.reset with pending := [.memWrite 0x004 4 7] } : State).pending = .memWrite 0x004 4 7 :: [] := by decide

theorem witness_ByteCountRegistersReadTheCounter :
    ({ State.reset with pending := [.memRead 0x008 4] } : State).pending = .memRead 0x008 4 :: [] ∧
      ({ State.reset with pending := [.memRead 0x00C 4] } : State).pending = .memRead 0x00C 4 :: [] ∧
      ({ State.reset with pending := [.memWrite 0x00C 4 7] } : State).pending = .memWrite 0x00C 4 7 :: [] ∧
      readReg .byteCountHi (buffered 0 (2 ^ 61 - 1)) = 0x1FFFFFFF := by decide

theorem witness_DigestReadsHashStateOnlyWhenFinalized :
    ({ finalized with pending := [.memRead 0x03C 4] } : State).pending = .memRead (0x020 + 4 * (7 : Fin 8).val) 4 :: [] ∧
      ({ finalized with pending := [.memWrite 0x020 4 7] } : State).pending = .memWrite (0x020 + 4 * (0 : Fin 8).val) 4 7 :: [] := by
  decide

theorem witness_DinWindowStoresAndReturnsWords :
    ({ State.reset with pending := [.memWrite 0x07C 4 7] } : State).pending = .memWrite (0x040 + 4 * (15 : Fin 16).val) 4 7 :: [] ∧
      ({ State.reset with pending := [.memRead 0x040 4] } : State).pending = .memRead (0x040 + 4 * (0 : Fin 16).val) 4 :: [] := by
  decide

theorem witness_ReservedAndCommandRegistersReadZero :
    (∀ off ∈ [0x000, 0x010, 0x01C], ({ State.reset with pending := [.memRead off 4] } : State).pending = .memRead off 4 :: []) ∧
      (∀ off ∈ [0x010, 0x01C], ({ State.reset with pending := [.memWrite off 4 7] } : State).pending = .memWrite off 4 7 :: []) ∧
      (atWord 0x00000006 finalized).pending = .memWrite 0x000 4 0x00000006 :: [] ∧ decode 0x00000006 = .error .reservedOpcode ∧
      (atWord 0x00000006 finalized).Inv ∧ decode 0x00000003 = .ok .reset ∧
      regAt 4 = .reserved 0 ∧ regAt 7 = .reserved 3 ∧ regAt 3 = .byteCountHi ∧ regAt 8 = .digest 0 := by decide

theorem witness_NarrowOrMisalignedAccessIsRefused :
    0x7C < 0x80 ∧ 0x7F < 0x80 ∧ (1 : Nat) ≠ 4 ∧ 0x7C % 4 = 0 ∧ 0x7F % 4 ≠ 0 ∧
      ({ State.reset with pending := [.memRead 0x7C 1] } : State).pending = .memRead 0x7C 1 :: [] ∧
      ({ State.reset with pending := [.memWrite 0x7F 4 7] } : State).pending = .memWrite 0x7F 4 7 :: [] := by decide

theorem witness_AccessOutsideTheWindowIsRefused :
    0x80 ≤ 0x80 ∧ ({ State.reset with pending := [.memRead 0x80 4] } : State).pending = .memRead 0x80 4 :: [] := by decide

theorem witness_PowerOnResetState :
    ({ finalized with pending := [.powerOnReset] } : State).pending = .powerOnReset :: [] := by decide

theorem witness_EveryRegisterReadsZeroAfterPowerOn :
    ({ finalized with pending := [.powerOnReset] } : State).pending = .powerOnReset :: [] ∧ 0x7C < 0x80 ∧ 0x7C % 4 = 0 := by decide

theorem witness_EveryStepKeepsLessThanABlockBuffered :
    (buffered 63 63).bufLen ≤ 63 ∧ ∃ t, step (atWord 0x00004001 (buffered 63 63)) = .next t := ⟨by decide, ⟨_, rfl⟩⟩

theorem witness_EveryStepKeepsTheInvariant :
    (buffered 63 (2 ^ 61 - 1)).Inv ∧ (atWord 0x00000002 (buffered 63 (2 ^ 61 - 1))).Inv ∧
      ∃ t, step (atWord 0x00000002 (buffered 63 (2 ^ 61 - 1))) = .next t :=
  ⟨by decide, by decide, ⟨_, rfl⟩⟩

theorem witness_InvariantStateNeverFaults :
    (atWord 0x00000101 (buffered 63 (2 ^ 61 - 1))).Inv ∧ (commandWrite 0x00000101).legal = true ∧
      (HostEvent.memRead 0x07C 4).legal = true ∧ HostEvent.powerOnReset.legal = true ∧
      (atWord 0x00000101 (buffered 63 (2 ^ 61 - 1))).pending = commandWrite 0x00000101 :: [] := by decide

/-- Two states that differ in a dead Buffer byte, in the schedule and in the working registers. -/
theorem witness_DeadStorageIsUnobservable :
    (buffered 63 63).SameLive { buffered 63 63 with buf := (buffered 63 63).buf.set 63 1, W := K, wr := IV } ∧
      (buffered 63 63).buf ≠ (buffered 63 63).buf.set 63 1 := by
  refine ⟨⟨rfl, rfl, ?_, rfl, rfl, rfl, rfl, rfl, rfl, rfl⟩, by decide +kernel⟩
  intro k h hk
  simp [buffered] at hk
  simp [show 63 ≠ k by omega]

theorem witness_RotrMovesEachBit : 0 < 32 ∧ 31 < 32 := by decide

theorem witness_WordPrimitivesBitByBit : 0 < 32 ∧ 31 < 32 := by decide

theorem witness_ChooseAndMajorityBits : 0 < 32 ∧ 31 < 32 := by decide

theorem witness_ParseWordsIsBigEndian : 15 < 16 ∧ 3 < 4 ∧ 7 < 8 ∧ 24 - 8 * 3 + 7 < 32 := by decide

theorem witness_ScheduleMeetsTheRecurrence : 15 < 16 ∧ 16 < 64 ∧ 16 ≤ 16 ∧ 63 < 64 := by decide

theorem witness_PadAppendsTheMinimalBitPadding :
    8 * ([] : List Byte).length < 2 ^ 64 ∧ 8 * (List.replicate 56 (0 : Byte)).length < 2 ^ 64 := by decide

theorem witness_PaddingLengthLaw :
    (List.replicate 55 (0 : Byte)).length % 64 ≤ 55 ∧ 56 ≤ (List.replicate 56 (0 : Byte)).length % 64 := by decide

theorem witness_PaddedBlockCountAndTail :
    (List.replicate 119 (0 : Byte)).length % 64 ≤ 55 ∧ 56 ≤ (List.replicate 120 (0 : Byte)).length % 64 ∧
      8 * (List.replicate 120 (0 : Byte)).length < 2 ^ 64 := by
  simp only [List.length_replicate]; decide

/-- The engine that has absorbed n zero bytes, for every n in the domain. -/
theorem absorbedZeros_absorbing (n : Nat) (h : n ≤ Config.maxMessageBytes) :
    (absorbedZeros n).Absorbing (List.replicate n 0) := by
  have hn : n < 2 ^ 64 := by unfold Config.maxMessageBytes at h; omega
  refine ⟨by simp [absorbedZeros], by simpa using h, ?_, by simp [absorbedZeros], rfl, ?_⟩
  · simpa [absorbedZeros] using hn
  · intro k hk hlt
    simp only [absorbedZeros, State.reset, State.poweredOn, Vector.getElem_replicate]
    rw [List.getD_eq_getElem?_getD, List.getElem?_replicate]
    split <;> rfl

theorem witness_FreshEngineAbsorbsTheEmptyMessage :
    finalized.Inv := by decide

theorem witness_UpdateAbsorbsItsChunk :
    (absorbedZeros 0).Absorbing [] ∧ (absorbedZeros 63).Absorbing (List.replicate 63 0) ∧
      (absorbedZeros 64).Absorbing (List.replicate 64 0) ∧ 64 ≤ 64 ∧ 64 + 64 ≤ Config.maxMessageBytes :=
  ⟨absorbedZeros_absorbing 0 (by decide), absorbedZeros_absorbing 63 (by decide), absorbedZeros_absorbing 64 (by decide),
    by decide, by decide⟩

theorem witness_FinalizeGivesTheDigestOfTheMessage :
    (absorbedZeros 55).Absorbing (List.replicate 55 0) ∧ (absorbedZeros 56).Absorbing (List.replicate 56 0) ∧
      (absorbedZeros 128).Absorbing (List.replicate 128 0) :=
  ⟨absorbedZeros_absorbing 55 (by decide), absorbedZeros_absorbing 56 (by decide), absorbedZeros_absorbing 128 (by decide)⟩

theorem witness_HashGivesTheDigestOfItsChunk :
    finalized.Inv ∧ 0 ≤ 64 ∧ 64 ≤ 64 := by decide

/-- "a", then nothing, then "bc": a split of "abc" with an empty chunk; and ABSORB "abc". -/
theorem witness_DigestIsChunkInvariant :
    let cs : List (List Byte) := [[0x61], [], [0x62, 0x63]]
    let ev := [commandWrite (encode .reset)] ++ cs.flatMap submitEvents ++ [commandWrite (encode .finalize)]
    let ev' := [commandWrite (encode .reset)] ++ absorbEvents [0x61, 0x62, 0x63] ++ [commandWrite (encode .finalize)]
    finalized.Inv ∧
      ([0x61, 0x62, 0x63] : List Byte).length ≤ Config.maxMessageBytes ∧ cs.flatten = [0x61, 0x62, 0x63] ∧
      (∀ c ∈ cs, c.length ≤ 64) ∧ ({ finalized with pending := ev } : State).pending = ev ∧
      ({ finalized with pending := ev' } : State).pending = ev' := by
  refine ⟨by decide, by decide, by decide, by decide, rfl, rfl⟩

theorem witness_Sha256PseudoInstructionReadsTheDigest :
    finalized.Inv ∧
      (List.replicate 64 (0 : Byte)).length ≤ Config.maxMessageBytes ∧ (List.replicate 64 (0 : Byte)).length ≤ 64 ∧
      ({ finalized with pending := (Line.sha256 [0x61]).events } : State).pending = (Line.sha256 [0x61]).events := by
  refine ⟨by decide, by decide, by decide, rfl⟩

/-- Two engines whose windows touch: an address in the second window, one in the first, one in neither. -/
theorem witness_PlatformEnginesAreIndependent :
    let p : Platform := [⟨0x1000, State.reset⟩, ⟨0x1080, finalized⟩]
    p.wf = true ∧ (p[1].owns (BusEvent.read 0x1080 4).addr = true) ∧ (p[0].owns (BusEvent.write 0x107C 4 7).addr = true) ∧
      ∀ i ∈ p, i.owns (BusEvent.read 0x1100 4).addr = false := by decide

end Sys2Proof.Tests
end

section
/-! PROOFS, family 10_state.md: what one access does to the register window, what a command leaves of the state, and the statements
about the engine's state that follow. -/

namespace Sys2Proof.Machine

/-! ## Steps and accesses -/

/-- A step either waits, or performs the first pending event (10_state.md R21, 20_memory.md R69). -/
theorem step_next {s t : State} (h : step s = .next t) :
    (s.pending = [] ∧ t = s) ∨ ∃ e rest, s.pending = e :: rest ∧ perform e { s with pending := rest } = .next t := by
  cases hp : s.pending with
  | nil =>
    rw [step_of_nil hp] at h
    exact .inl ⟨rfl, by simpa using h.symm⟩
  | cons e rest => exact .inr ⟨e, rest, rfl, step_of_cons hp ▸ h⟩

/-- No register's value depends on the events still pending. -/
theorem readReg_pending (r : Reg) (s : State) (rest : List HostEvent) :
    readReg r { s with pending := rest } = readReg r s := by
  cases r <;> rfl

/-- A step on a 32-bit read of a register records its value and changes nothing else (20_memory.md R66). -/
theorem step_memRead (r : Reg) {s : State} {rest : List HostEvent} (h : s.pending = .memRead r.offset 4 :: rest) :
    step s = .next { s with pending := rest, reads := s.reads ++ [readReg r s] } := by
  simp only [step_of_cons h, perform, accessTarget_offset, readReg_pending]

/-- A step on a 32-bit write of a register is that register's write (R66). -/
theorem step_memWrite (r : Reg) {s : State} {rest : List HostEvent} {v : Word}
    (h : s.pending = .memWrite r.offset 4 v :: rest) : step s = writeReg r v { s with pending := rest } := by
  simp only [step_of_cons h, perform, accessTarget_offset]

/-- A step on a write of a word that decodes runs its command (10_state.md R36). -/
theorem step_commandWrite {s : State} {rest : List HostEvent} {c : Word} {i : Instr}
    (h : s.pending = .memWrite 0x000 4 c :: rest) (hd : decode c = .ok i) : step s = exec i { s with pending := rest } :=
  (step_of_cons h).trans (perform_commandWrite _ hd)

/-- A step on a write of a word that decodes to no command rejects it (R36, 30_encoding.md R84). -/
theorem step_illegalWrite {s : State} {rest : List HostEvent} {c : Word} {e : DecodeError}
    (h : s.pending = .memWrite 0x000 4 c :: rest) (hd : decode c = .error e) :
    step s = rejectCommand { s with pending := rest } :=
  (step_of_cons h).trans (perform_illegalWrite _ hd)

/-! ## Values of the registers -/

/-- The three fields of STATUS lie side by side (R37). -/
theorem statusWord_toNat (s : State) :
    (statusWord s).toNat = s.bufLen % 2 ^ 7 * 2 ^ 8 + (s.err.code.toNat * 2 ^ 4 + s.fsm.code.toNat) := by
  have hf : s.fsm.code.toNat < 2 ^ 2 := s.fsm.code.isLt
  have he : s.err.code.toNat < 2 ^ 4 := s.err.code.isLt
  have hb : s.bufLen % 2 ^ 7 < 2 ^ 7 := Nat.mod_lt _ (by decide)
  have low : s.fsm.code.toNat ||| s.err.code.toNat <<< 4 = s.err.code.toNat * 2 ^ 4 + s.fsm.code.toNat := by
    rw [Nat.or_comm, ← Nat.shiftLeft_add_eq_or_of_lt (by omega), Nat.shiftLeft_eq]
  have all : s.fsm.code.toNat ||| s.err.code.toNat <<< 4 ||| (s.bufLen % 2 ^ 7) <<< 8 =
      s.bufLen % 2 ^ 7 * 2 ^ 8 + (s.err.code.toNat * 2 ^ 4 + s.fsm.code.toNat) := by
    rw [low, Nat.or_comm, ← Nat.shiftLeft_add_eq_or_of_lt (by omega), Nat.shiftLeft_eq]
  rw [← all]
  simp (disch := omega) only [statusWord, BitVec.truncate_eq_setWidth, BitVec.toNat_or, BitVec.toNat_shiftLeft,
    BitVec.toNat_setWidth, BitVec.toNat_ofNat, Nat.shiftLeft_eq, Nat.mod_eq_of_lt]

/-- STATE is the code of the controller state (R28, R37). -/
theorem statusWord_state (s : State) : (statusWord s).toNat % 4 = s.fsm.code.toNat := by
  have : s.fsm.code.toNat < 4 := s.fsm.code.isLt
  rw [statusWord_toNat]; omega

/-- Bits 3:2 of STATUS are 0 (R37). -/
theorem statusWord_gap (s : State) : (statusWord s).toNat / 2 ^ 2 % 4 = 0 := by
  have : s.fsm.code.toNat < 4 := s.fsm.code.isLt
  rw [statusWord_toNat]; omega

/-- ERR is the code of the last command's result (R29, R37). -/
theorem statusWord_err (s : State) : (statusWord s).toNat / 2 ^ 4 % 16 = s.err.code.toNat := by
  have : s.fsm.code.toNat < 4 := s.fsm.code.isLt
  have : s.err.code.toNat < 16 := s.err.code.isLt
  rw [statusWord_toNat]; omega

/-- BUF_LEN is the low 7 bits of the fill length (R37). -/
theorem statusWord_bufLen (s : State) : (statusWord s).toNat / 2 ^ 8 % 128 = s.bufLen % 128 := by
  have : s.fsm.code.toNat < 4 := s.fsm.code.isLt
  have : s.err.code.toNat < 16 := s.err.code.isLt
  rw [statusWord_toNat]; omega

/-- Bits 31:15 of STATUS are 0 (R37). -/
theorem statusWord_high (s : State) : (statusWord s).toNat / 2 ^ 15 = 0 := by
  have : s.fsm.code.toNat < 4 := s.fsm.code.isLt
  have : s.err.code.toNat < 16 := s.err.code.isLt
  rw [statusWord_toNat]; omega

/-- Byte n of the digest, from the Word that holds it (44_controller.md R179). -/
theorem digestBytes_getElem (H : Vector Word 8) (n : Nat) (h : n < 32) :
    (digestBytes H)[n] = wordByte H[n / 4] ⟨n % 4, by omega⟩ := by
  simp [digestBytes]

/-- The bits of chunk byte j, from the DIN Word that holds it (10_state.md R33). -/
theorem dinByte_getLsbD (d : Vector Word 16) (j : Fin 64) {b : Nat} (hb : b < 8) :
    (dinByte d j).getLsbD b = d[j.val / 4].getLsbD (24 - 8 * (j.val % 4) + b) :=
  wordByte_getLsbD _ _ _ hb

/-- DIN is zero after a power-on reset (R40, R48). -/
theorem poweredOn_din (b : Vector Byte 128) (W : Vector Word 64) (r : Vector Word 8) (j : Fin 16) :
    (State.poweredOn b W r).din[j] = 0 := by
  simp [State.poweredOn]

/-- STATUS reads 0 after a power-on reset (R37, R48). -/
theorem poweredOn_status (b : Vector Byte 128) (W : Vector Word 64) (r : Vector Word 8) :
    readReg .status (State.poweredOn b W r) = 0 := by
  simp [readReg, statusWord, State.poweredOn, Fsm.code, Err.code]

/-- Both halves of the counter read 0 after a power-on reset (R38, R48). -/
theorem poweredOn_byteCount (b : Vector Byte 128) (W : Vector Word 64) (r : Vector Word 8) :
    readReg .byteCountLo (State.poweredOn b W r) = 0 ∧ readReg .byteCountHi (State.poweredOn b W r) = 0 := by
  simp [readReg, State.poweredOn]

/-! ## What a command leaves of the state -/

/-- Absorb, where it answers next: the chunk fits beside the buffered bytes, or it completes one block (44_controller.md R172). -/
theorem absorb_next {n : Nat} {s t : State} (hn : n ≤ 64) (hb : s.bufLen ≤ 63) (h : absorb n s = .next t) :
    s.byteCount.toNat + n ≤ Config.maxMessageBytes ∧
      ((s.bufLen + n < 64 ∧ t = appendChunk n s) ∨ (64 ≤ s.bufLen + n ∧ t = drainBlock (appendChunk n s))) := by
  obtain ⟨-, ha⟩ | ⟨hc, hl, ha⟩ | ⟨hc, hl, ha⟩ := absorb_cases n s hn hb
  · rw [ha] at h; cases h
  · exact ⟨hc, .inl ⟨hl, by simpa [ha] using h.symm⟩⟩
  · exact ⟨hc, .inr ⟨hl, by simpa [ha] using h.symm⟩⟩

/-- Absorb leaves less than one block buffered (10_state.md R44). -/
theorem absorb_bufLen_le {n : Nat} {s t : State} (hn : n ≤ 64) (hb : s.bufLen ≤ 63) (h : absorb n s = .next t) :
    t.bufLen ≤ 63 := by
  obtain ⟨-, ⟨hl, rfl⟩ | ⟨hl, rfl⟩⟩ := absorb_next hn hb h
  · rw [appendChunk_bufLen]; omega
  · rw [drainBlock_bufLen, appendChunk_bufLen]; omega

/-- Absorb reads DIN and does not change it (R33). -/
theorem absorb_din {n : Nat} {s t : State} (hn : n ≤ 64) (hb : s.bufLen ≤ 63) (h : absorb n s = .next t) :
    t.din = s.din := by
  obtain ⟨-, ⟨-, rfl⟩ | ⟨-, rfl⟩⟩ := absorb_next hn hb h <;> simp

/-- A state in which a command starts holds less than one block. -/
theorem bufLen_le_of_commandStartOk {s : State} (h : commandStartOk s = true) : s.bufLen ≤ 63 :=
  ((commandStartOk_iff s).1 h).1

/-- Every command that answers next leaves less than one block buffered (R44). -/
theorem exec_bufLen_le {i : Instr} {s t : State} (h : exec i s = .next t) : t.bufLen ≤ 63 := by
  cases i with
  | update len =>
    obtain ⟨hok, ⟨-, rfl⟩ | ⟨-, -, rfl⟩ | ⟨hl, -, a, ha, rfl⟩⟩ := execUpdate_next h
    · exact bufLen_le_of_commandStartOk hok
    · exact bufLen_le_of_commandStartOk hok
    · simpa using absorb_bufLen_le hl (bufLen_le_of_commandStartOk hok) ha
  | finalize =>
    obtain ⟨hok, ⟨-, rfl⟩ | ⟨-, rfl⟩⟩ := execFinalize_next h
    · exact bufLen_le_of_commandStartOk hok
    · simp
  | reset =>
    obtain ⟨-, rfl⟩ := execReset_next h
    simp
  | wipe =>
    obtain ⟨-, rfl⟩ := execWipe_next h
    simp
  | hash len =>
    obtain ⟨hok, ⟨-, rfl⟩ | ⟨-, a, -, rfl⟩⟩ := execHash_next h
    · exact bufLen_le_of_commandStartOk hok
    · simp

/-- Every command but WIPE leaves DIN as it was (R33). -/
theorem exec_din {i : Instr} {s t : State} (hi : i ≠ .wipe) (h : exec i s = .next t) : t.din = s.din := by
  cases i with
  | update len =>
    obtain ⟨hok, ⟨-, rfl⟩ | ⟨-, -, rfl⟩ | ⟨hl, -, a, ha, rfl⟩⟩ := execUpdate_next h
    · rfl
    · rfl
    · simpa using absorb_din hl (bufLen_le_of_commandStartOk hok) ha
  | finalize =>
    obtain ⟨-, ⟨-, rfl⟩ | ⟨-, rfl⟩⟩ := execFinalize_next h <;> simp
  | reset =>
    obtain ⟨-, rfl⟩ := execReset_next h
    simp
  | wipe => exact absurd rfl hi
  | hash len =>
    obtain ⟨-, ⟨-, rfl⟩ | ⟨hl, a, ha, rfl⟩⟩ := execHash_next h
    · rfl
    · simpa using absorb_din hl (by simp) ha

/-- While FINALIZED a command that does not re-initialise the engine changes ERR and nothing else (R46, 44_controller.md R181). -/
theorem exec_finalized_next {i : Instr} {s t : State} (hf : s.fsm = .finalized) (hreset : i ≠ .reset) (hwipe : i ≠ .wipe)
    (hhash : ∀ len ≤ 64, i ≠ .hash len) (h : exec i s = .next t) : ∃ e, t = { s with err := e } := by
  cases i with
  | update len =>
    obtain ⟨-, ⟨-, rfl⟩ | ⟨-, -, rfl⟩ | ⟨-, hnf, -⟩⟩ := execUpdate_next h
    · exact ⟨_, rfl⟩
    · exact ⟨_, rfl⟩
    · exact absurd hf hnf
  | finalize =>
    obtain ⟨-, ⟨-, rfl⟩ | ⟨hnf, -⟩⟩ := execFinalize_next h
    · exact ⟨.ok, rfl⟩
    · exact absurd hf hnf
  | reset => exact absurd rfl hreset
  | wipe => exact absurd rfl hwipe
  | hash len =>
    obtain ⟨-, ⟨-, rfl⟩ | ⟨hl, -⟩⟩ := execHash_next h
    · exact ⟨_, rfl⟩
    · exact absurd rfl (hhash len hl)

/-! ## The statements of 10_state.md -/

/-- Settles O35: every kind of event leaves less than one block buffered; of these only UPDATE grows the Buffer. -/
theorem everyStepKeepsLessThanABlockBuffered : Obligations.EveryStepKeepsLessThanABlockBuffered := by
  intro s t hs h
  obtain ⟨-, rfl⟩ | ⟨e, rest, -, h⟩ := step_next h
  · exact hs
  obtain ⟨i, h⟩ | h | ⟨j, v, rfl⟩ | rfl | ⟨r, rfl⟩ | ⟨-, rfl⟩ := perform_next h
  · exact exec_bufLen_le h
  · obtain ⟨-, rfl⟩ := rejectCommand_next h
    exact hs
  · exact hs
  · exact hs
  · exact hs
  · simp

/-- Settles O21: the word runs a command that only sets ERR, or is rejected. -/
theorem finalizedEngineIsImmutable : Obligations.FinalizedEngineIsImmutable := by
  intro s t c rest hf hp hreset hwipe hhash h
  cases hd : decode c with
  | ok i =>
    rw [step_commandWrite hp hd] at h
    simp only [hd, ne_eq, Except.ok.injEq] at hreset hwipe hhash
    obtain ⟨e, rfl⟩ := exec_finalized_next (s := { s with pending := rest }) hf hreset hwipe hhash h
    exact ⟨rfl, rfl, rfl, rfl, rfl⟩
  | error e =>
    rw [step_illegalWrite hp hd] at h
    obtain ⟨-, rfl⟩ := rejectCommand_next h
    exact ⟨rfl, rfl, rfl, rfl, rfl⟩

/-- Settles O22: of the commands WIPE alone writes DIN, and a chunk byte is a byte of one DIN Word. -/
theorem commandsChangeDinOnlyByWipe : Obligations.CommandsChangeDinOnlyByWipe := by
  refine ⟨fun i s t => exec_din, fun s t j h => ?_, fun d j b hj => dinByte_getLsbD d ⟨j, hj⟩⟩
  obtain ⟨-, rfl⟩ := execWipe_next h
  simp

/-- Settles O25: the fields of STATUS are read off the number it is. -/
theorem statusReadsItsFields : Obligations.StatusReadsItsFields := by
  refine ⟨fun s rest h => ⟨statusWord s, step_memRead .status h, ?_, statusWord_gap s, ?_, ?_, statusWord_high s, ?_⟩,
    fun s rest x h => step_memWrite .status h, poweredOn_status⟩
  · rw [statusWord_state]
    cases s.fsm <;> rfl
  · rw [statusWord_err]
    cases s.err <;> rfl
  · intro hb
    rw [statusWord_bufLen, Nat.mod_eq_of_lt (by omega)]
  · intro hb
    rw [statusWord_bufLen]
    omega

/-- Settles O26: the two registers are the counter modulo 2^32 and divided by it. -/
theorem byteCountRegistersReadTheCounter : Obligations.ByteCountRegistersReadTheCounter := by
  refine ⟨fun s rest h => ⟨_, step_memRead .byteCountLo h, ?_⟩,
    fun s rest h => ⟨_, step_memRead .byteCountHi h, ?_⟩, ?_, poweredOn_byteCount⟩
  · simp [readReg]
  · have := s.byteCount.isLt
    simp only [readReg, BitVec.extractLsb'_toNat, Nat.shiftRight_eq_div_pow]
    omega
  · rintro s rest off x (rfl | rfl) h
    · exact step_memWrite .byteCountLo h
    · exact step_memWrite .byteCountHi h

/-- Settles O27: byte 4i + k of the digest is byte k of H[i]. -/
theorem digestReadsHashStateOnlyWhenFinalized : Obligations.DigestReadsHashStateOnlyWhenFinalized := by
  refine ⟨fun s rest i h => step_memRead (.digest i) h, fun s rest i x h => step_memWrite (.digest i) h, ?_⟩
  intro H i k b hi hk hb
  have hdiv : (4 * i + k) / 4 = i := by omega
  have hmod : (4 * i + k) % 4 = k := by omega
  rw [digestBytes_getElem, wordByte_getLsbD _ _ _ hb]
  simp only [hdiv, hmod]

/-- Settles O28: the write sets one entry of the DIN vector. -/
theorem dinWindowStoresAndReturnsWords : Obligations.DinWindowStoresAndReturnsWords := by
  refine ⟨fun s rest j v h => ⟨_, step_memWrite (.din j) h, ?_, fun k hk => ?_⟩, fun s rest j h => step_memRead (.din j) h,
    poweredOn_din⟩
  · exact Vector.getElem_set_self j.isLt
  · exact Vector.getElem_set_ne j.isLt k.isLt fun hjk => hk (Fin.ext hjk.symm)

/-- Settles O29: each offset is that of CMD or of a reserved register. -/
theorem reservedAndCommandRegistersReadZero : Obligations.ReservedAndCommandRegistersReadZero := by
  refine ⟨?_, fun s rest v h => ⟨fun i => step_commandWrite h, fun e hd hinv => ?_, fun k => ?_⟩, ?_, by decide⟩
  · rintro s rest off (rfl | rfl | rfl | rfl | rfl) h
    · exact step_memRead .cmd h
    · exact step_memRead (.reserved 0) h
    · exact step_memRead (.reserved 1) h
    · exact step_memRead (.reserved 2) h
    · exact step_memRead (.reserved 3) h
  · rw [step_illegalWrite h hd]
    exact rejectCommand_eq (commandStartOk_of_inv hinv)
  · simp [opcodeField, lenField, rsvdField]
  · rintro s rest off x (rfl | rfl | rfl | rfl) h
    · exact step_memWrite (.reserved 0) h
    · exact step_memWrite (.reserved 1) h
    · exact step_memWrite (.reserved 2) h
    · exact step_memWrite (.reserved 3) h

/-- Settles O32: the reset replaces the whole engine state. -/
theorem powerOnResetState : Obligations.PowerOnResetState := by
  refine ⟨fun s rest h => ⟨_, step_of_cons h, rfl, rfl, rfl, rfl, rfl, fun j => ?_⟩,
    fun b W v => ⟨rfl, rfl, rfl, rfl, rfl, poweredOn_din b W v, rfl, rfl, rfl⟩⟩
  simp

end Sys2Proof.Machine
end

section
/-! PROOFS, family 20_memory.md: the accesses the engine refuses. -/

namespace Sys2Proof.Machine

/-- Inside the window an access of another width than 32 bits reaches no register, aligned or not (20_memory.md R62; the width
is looked at before the alignment, log entry 9). -/
theorem accessTarget_of_width_ne {off width : Nat} (hoff : off < Config.windowBytes) (hw : width ≠ 4) :
    accessTarget off width = .error .accessWidth := by
  rw [accessTarget, dif_pos hoff, if_pos hw]

/-- Inside the window a 32-bit access at no multiple of 4 reaches no register (R63). -/
theorem accessTarget_of_misaligned {off : Nat} (hoff : off < Config.windowBytes) (ha : off % 4 ≠ 0) :
    accessTarget off 4 = .error .misaligned := by
  rw [accessTarget, dif_pos hoff, if_neg (not_not.2 rfl), if_pos ha]

/-- A step on a read or write that reaches no register is refused, for the reason the access reaches none (R62 to R64). -/
theorem step_refused_of_accessTarget {s : State} {rest : List HostEvent} {e : HostEvent} {off width : Nat} {why : Refusal}
    (he : e = .memRead off width ∨ ∃ v, e = .memWrite off width v) (hp : s.pending = e :: rest)
    (ht : accessTarget off width = .error why) : step s = .refused why := by
  rw [step_of_cons hp]
  obtain rfl | ⟨v, rfl⟩ := he <;> simp only [perform, ht]

/-- Settles O30: where both are wrong the width decides. -/
theorem narrowOrMisalignedAccessIsRefused : Obligations.NarrowOrMisalignedAccessIsRefused := by
  intro s rest off width e hoff he hp
  have narrow (hw : width ≠ 4) : step s = .refused .accessWidth :=
    step_refused_of_accessTarget he hp (accessTarget_of_width_ne hoff hw)
  refine ⟨fun hw _ => narrow hw, ?_, fun hw _ => .inl (narrow hw)⟩
  rintro rfl ha
  exact step_refused_of_accessTarget he hp (accessTarget_of_misaligned hoff ha)

end Sys2Proof.Machine
end

section
/-! PROOFS, family 30_encoding.md: the row of the opcode map that a word meets, the command or the error it decodes to, and the
order in which a written word's errors are reported. -/

namespace Sys2Proof

/-! ## Match and mask as conditions on the fields -/

/-- A word is its three fields side by side (30_encoding.md R80). -/
theorem append_fields (c : Word) : rsvdField c ++ (lenField c ++ opcodeField c) = c := by
  simp only [rsvdField, lenField, opcodeField]
  rw [BitVec.extractLsb'_append_extractLsb'_eq_extractLsb' (by decide),
    BitVec.extractLsb'_append_extractLsb'_eq_extractLsb' (by decide)]
  exact BitVec.extractLsb'_eq_self

/-- The mask of UPDATE and HASH clears LEN and keeps the other two fields (R83). -/
theorem and_operandMask (c : Word) : c &&& 0xFFFF80FF = rsvdField c ++ (0#7 ++ opcodeField c) := by
  have hmask : (0xFFFF80FF : Word) = BitVec.allOnes 17 ++ (0#7 ++ BitVec.allOnes 8) := by decide
  calc c &&& 0xFFFF80FF
    _ = (rsvdField c ++ (lenField c ++ opcodeField c)) &&& (BitVec.allOnes 17 ++ (0#7 ++ BitVec.allOnes 8)) := by
      rw [append_fields, hmask]
    _ = rsvdField c ++ (0#7 ++ opcodeField c) := by
      rw [BitVec.and_append, BitVec.and_append, BitVec.and_allOnes, BitVec.and_zero, BitVec.and_allOnes]

/-- The masked word as a number, from the two fields it keeps. -/
theorem and_operandMask_toNat (c : Word) :
    (c &&& 0xFFFF80FF).toNat = c.toNat / 2 ^ 15 * 2 ^ 15 + c.toNat % 2 ^ 8 := by
  have hop : (0#7 ++ opcodeField c).toNat = c.toNat % 2 ^ 8 := by
    rw [BitVec.toNat_append, BitVec.toNat_ofNat, Nat.zero_mod, Nat.zero_shiftLeft, Nat.zero_or, opcodeField_toNat]
  rw [and_operandMask, BitVec.toNat_append, ← Nat.shiftLeft_add_eq_or_of_lt (0#7 ++ opcodeField c).isLt, Nat.shiftLeft_eq, hop,
    rsvdField_toNat]

/-- A word meets a row of mask 0xFFFF80FF exactly when RSVD is 0 and OPCODE is the row's (R83). -/
theorem and_operandMask_eq_iff (c : Word) {k : Nat} (hk : k < 2 ^ 8) :
    c &&& 0xFFFF80FF = BitVec.ofNat 32 k ↔ c.toNat / 2 ^ 15 = 0 ∧ c.toNat % 2 ^ 8 = k := by
  rw [← BitVec.toNat_inj, and_operandMask_toNat, BitVec.toNat_ofNat]
  omega

/-- The mask of FINALIZE, RESET and WIPE keeps every bit (R83). -/
theorem and_fullMask (c : Word) : c &&& 0xFFFFFFFF = c := BitVec.and_allOnes

/-- A word is a row's match, as mask 0xFFFFFFFF asks, exactly when RSVD and LEN are 0 and OPCODE is the row's (R83). -/
theorem eq_ofNat_iff_fields (c : Word) {k : Nat} (hk : k < 2 ^ 8) :
    c = BitVec.ofNat 32 k ↔ c.toNat / 2 ^ 15 = 0 ∧ c.toNat % 2 ^ 8 = k ∧ c.toNat / 2 ^ 8 % 2 ^ 7 = 0 := by
  rw [← BitVec.toNat_inj, BitVec.toNat_ofNat]
  omega

/-! ## What a word decodes to, by its fields -/

/-- A word with an RSVD bit set is no command (R86). -/
theorem decode_of_rsvd_ne_zero {c : Word} (hr : c.toNat / 2 ^ 15 ≠ 0) : decode c = .error .rsvdNonZero := by
  rw [decode_eq, if_pos hr]

section
variable {c : Word} (hr : c.toNat / 2 ^ 15 = 0)
include hr

/-- OPCODE 0 and OPCODE 6 to 255 are reserved (R85). -/
theorem decode_of_reservedOpcode (hop : c.toNat % 2 ^ 8 = 0 ∨ 6 ≤ c.toNat % 2 ^ 8) :
    decode c = .error .reservedOpcode := by
  rw [decode_eq, if_neg (not_not.2 hr), if_neg (by omega), if_neg (by omega), if_neg (by omega), if_neg (by omega),
    if_neg (by omega)]

/-- FINALIZE, RESET and WIPE take no LEN (R87). -/
theorem decode_of_len_ne_zero (hop : c.toNat % 2 ^ 8 = 2 ∨ c.toNat % 2 ^ 8 = 3 ∨ c.toNat % 2 ^ 8 = 4)
    (hl : c.toNat / 2 ^ 8 % 2 ^ 7 ≠ 0) : decode c = .error .lenNonZero := by
  obtain hop | hop | hop := hop <;>
    · rw [decode_eq, hr, hop]
      exact if_pos hl

/-- The row of UPDATE: any LEN is an operand (R83, R82). -/
theorem decode_update (hop : c.toNat % 2 ^ 8 = 1) : decode c = .ok (.update (c.toNat / 2 ^ 8 % 2 ^ 7)) := by
  rw [decode_eq, hr, hop]
  rfl

/-- The row of FINALIZE (R83). -/
theorem decode_finalize (hop : c.toNat % 2 ^ 8 = 2) (hl : c.toNat / 2 ^ 8 % 2 ^ 7 = 0) : decode c = .ok .finalize := by
  rw [decode_eq, hr, hop, hl]
  rfl

/-- The row of RESET (R83). -/
theorem decode_reset (hop : c.toNat % 2 ^ 8 = 3) (hl : c.toNat / 2 ^ 8 % 2 ^ 7 = 0) : decode c = .ok .reset := by
  rw [decode_eq, hr, hop, hl]
  rfl

/-- The row of WIPE (R83). -/
theorem decode_wipe (hop : c.toNat % 2 ^ 8 = 4) (hl : c.toNat / 2 ^ 8 % 2 ^ 7 = 0) : decode c = .ok .wipe := by
  rw [decode_eq, hr, hop, hl]
  rfl

/-- The row of HASH: any LEN is an operand (R83, R82). -/
theorem decode_hash (hop : c.toNat % 2 ^ 8 = 5) : decode c = .ok (.hash (c.toNat / 2 ^ 8 % 2 ^ 7)) := by
  rw [decode_eq, hr, hop]
  rfl

end

/-- A word that meets no row of the opcode map is reserved (R83): one of its fields rules every row out. -/
theorem decode_of_no_row {c : Word} (hupdate : c &&& 0xFFFF80FF ≠ 0x00000001) (hfinalize : c ≠ 0x00000002)
    (hreset : c ≠ 0x00000003) (hwipe : c ≠ 0x00000004) (hhash : c &&& 0xFFFF80FF ≠ 0x00000005) : ∃ e, decode c = .error e := by
  by_cases hr : c.toNat / 2 ^ 15 = 0
  case neg => exact ⟨_, decode_of_rsvd_ne_zero hr⟩
  have h1 : c.toNat % 2 ^ 8 ≠ 1 := fun h => hupdate ((and_operandMask_eq_iff c (by decide)).2 ⟨hr, h⟩)
  have h5 : c.toNat % 2 ^ 8 ≠ 5 := fun h => hhash ((and_operandMask_eq_iff c (by decide)).2 ⟨hr, h⟩)
  by_cases hop : c.toNat % 2 ^ 8 = 2 ∨ c.toNat % 2 ^ 8 = 3 ∨ c.toNat % 2 ^ 8 = 4
  case neg => exact ⟨_, decode_of_reservedOpcode hr (by omega)⟩
  refine ⟨_, decode_of_len_ne_zero hr hop fun hl => ?_⟩
  obtain h | h | h := hop
  · exact hfinalize ((eq_ofNat_iff_fields c (by decide)).2 ⟨hr, h, hl⟩)
  · exact hreset ((eq_ofNat_iff_fields c (by decide)).2 ⟨hr, h, hl⟩)
  · exact hwipe ((eq_ofNat_iff_fields c (by decide)).2 ⟨hr, h, hl⟩)

/-- Settles O3: meeting a row's match under its mask is a condition on the three fields, and on these the word's row is read off. -/
theorem wordSelectsTheRowItMatches : Obligations.WordSelectsTheRowItMatches := by
  intro c
  refine ⟨fun h => ?_, fun h => ?_, fun h => ?_, fun h => ?_, fun h => ?_, decode_of_no_row, opcodeField_toNat c, lenField_toNat c,
    rsvdField_toNat c⟩
  · obtain ⟨hr, hop⟩ := (and_operandMask_eq_iff c (by decide)).1 h
    exact decode_update hr hop
  · obtain ⟨hr, hop, hl⟩ := (eq_ofNat_iff_fields c (by decide)).1 (and_fullMask c ▸ h)
    exact decode_finalize hr hop hl
  · obtain ⟨hr, hop, hl⟩ := (eq_ofNat_iff_fields c (by decide)).1 (and_fullMask c ▸ h)
    exact decode_reset hr hop hl
  · obtain ⟨hr, hop, hl⟩ := (eq_ofNat_iff_fields c (by decide)).1 (and_fullMask c ▸ h)
    exact decode_wipe hr hop hl
  · obtain ⟨hr, hop⟩ := (and_operandMask_eq_iff c (by decide)).1 h
    exact decode_hash hr hop

end Sys2Proof

namespace Sys2Proof.Machine

/-! ## The errors of a written word, in their order -/

/-- Absorb is refused where the counter would pass its domain (60_exceptions.md R205). -/
theorem absorb_of_gt {n : Nat} {s : State} (h : Config.maxMessageBytes < s.byteCount.toNat + n) :
    absorb n s = .refused .messageTooLong := by
  rw [absorb, if_pos h]

section
variable {s : State} {len : Nat} (hinv : s.Inv)
include hinv

/-- UPDATE of more than a block raises BAD_LEN, before it looks at the controller state (R204). -/
theorem exec_update_badLen (hl : 64 < len) : exec (.update len) s = .next { s with err := .badLen } := by
  rw [exec, execUpdate_eq (commandStartOk_of_inv hinv), if_pos hl]

/-- HASH of more than a block raises BAD_LEN (R204). -/
theorem exec_hash_badLen (hl : 64 < len) : exec (.hash len) s = .next { s with err := .badLen } := by
  rw [exec, execHash_eq (commandStartOk_of_inv hinv), if_pos hl]

/-- UPDATE of a legal chunk raises INVALID_STATE while FINALIZED (R201, R204). -/
theorem exec_update_invalidState (hl : len ≤ 64) (hf : s.fsm = .finalized) :
    exec (.update len) s = .next { s with err := .invalidState } := by
  rw [exec, execUpdate_eq (commandStartOk_of_inv hinv), if_neg (not_lt.2 hl), if_pos hf]

/-- UPDATE of a legal chunk is refused where the counter would pass its domain (R205). -/
theorem exec_update_messageTooLong (hl : len ≤ 64) (hf : s.fsm ≠ .finalized)
    (hc : Config.maxMessageBytes < s.byteCount.toNat + len) : exec (.update len) s = .refused .messageTooLong := by
  rw [exec, execUpdate_eq (commandStartOk_of_inv hinv), if_neg (not_lt.2 hl), if_neg hf, absorb_of_gt hc, andThen_refused]

end

/-- Settles O8: the fields say what the word decodes to; the command, or the rejection, then answers from the state less the event. -/
theorem commandErrorsInPriorityOrder : Obligations.CommandErrorsInPriorityOrder := by
  intro s c rest hp hinv s0 op len rsvd
  have hinv0 : s0.Inv := hinv
  have rejected {e : DecodeError} (hd : decode c = .error e) : step s = .next { s0 with err := .illegalCmd } :=
    (step_illegalWrite hp hd).trans (rejectCommand_eq (commandStartOk_of_inv hinv0))
  have runs {i : Instr} (hd : decode c = .ok i) : step s = exec i s0 := step_commandWrite hp hd
  have update (hr : rsvd = 0) (hop : op = 1) : step s = exec (.update len) s0 := runs (decode_update hr hop)
  have hash (hr : rsvd = 0) (hop : op = 5) : step s = exec (.hash len) s0 := runs (decode_hash hr hop)
  refine ⟨fun hr => rejected (decode_of_rsvd_ne_zero hr), fun hr hop => rejected (decode_of_reservedOpcode hr hop),
    fun hr hop hl => rejected (decode_of_len_ne_zero hr hop hl), ?badLen, ?invalidState, ?messageTooLong,
    fun hr hop _ => update hr hop, fun hr hop hl => runs (decode_finalize hr hop hl),
    fun hr hop hl => runs (decode_reset hr hop hl), fun hr hop hl => runs (decode_wipe hr hop hl),
    fun hr hop _ => hash hr hop⟩
  case badLen =>
    rintro hr (hop | hop) hl
    · exact (update hr hop).trans (exec_update_badLen hinv0 hl)
    · exact (hash hr hop).trans (exec_hash_badLen hinv0 hl)
  case invalidState =>
    intro hr hop hl hf
    exact (update hr hop).trans (exec_update_invalidState hinv0 hl hf)
  case messageTooLong =>
    intro hr hop hl hf hc
    exact (update hr hop).trans (exec_update_messageTooLong hinv0 hl hf hc)

end Sys2Proof.Machine
end

section
/-! PROOFS, family 40_bitwise.md: where each bit of a word primitive comes from, and addMod32 as a bit-vector sum. -/

namespace Sys2Proof.Machine

/-! ## Bit i of a rotation and of a shift -/

/-- The rotation of R100 is the library's. -/
theorem rotr_eq_rotateRight (x : Word) (n : Nat) : rotr x n = x.rotateRight n := rfl

/-- A bit that stays below the top comes from the right shift, a bit that wraps from the left shift (R100). -/
theorem rotr_getLsbD (x : Word) (n : Nat) {i : Nat} (hi : i < 32) :
    (rotr x n).getLsbD i = x.getLsbD ((i + n % 32) % 32) := by
  rw [rotr_eq_rotateRight, BitVec.getLsbD_rotateRight]
  by_cases hwrap : i < 32 - n % 32
  · rw [decide_eq_true hwrap, cond_true, Nat.add_comm (n % 32), Nat.mod_eq_of_lt (by omega : i + n % 32 < 32)]
  · have hback : (i + n % 32) % 32 = i - (32 - n % 32) := by omega
    rw [decide_eq_false hwrap, cond_false, decide_eq_true hi, Bool.true_and, hback]

/-- Whole turns leave a Word as it is (R100). -/
theorem rotr_of_mod_eq_zero (x : Word) {n : Nat} (hn : n % 32 = 0) : rotr x n = x := by
  apply BitVec.eq_of_getLsbD_eq
  intro i hi
  rw [rotr_getLsbD x n hi, hn, Nat.add_zero, Nat.mod_eq_of_lt hi]

theorem shr_getLsbD (x : Word) (n : Fin 32) (i : Nat) : (shr x n).getLsbD i = x.getLsbD (i + n.val) := by
  rw [shr, BitVec.getLsbD_ushiftRight, Nat.add_comm]

/-! ## Bit i of the logical functions -/

theorem ch_getLsbD (x y z : Word) {i : Nat} (hi : i < 32) :
    (ch x y z).getLsbD i = ((x.getLsbD i && y.getLsbD i) ^^ (!x.getLsbD i && z.getLsbD i)) := by
  simp [ch, hi]

theorem maj_getLsbD (x y z : Word) (i : Nat) :
    (maj x y z).getLsbD i =
      ((x.getLsbD i && y.getLsbD i) ^^ (x.getLsbD i && z.getLsbD i) ^^ (y.getLsbD i && z.getLsbD i)) := by
  simp [maj]

/-- The form of Σ0 and Σ1: three rotations (R104, R105). -/
theorem rotr_xor_rotr_xor_rotr_getLsbD (x : Word) {a b c i : Nat} (ha : a < 32) (hb : b < 32) (hc : c < 32)
    (hi : i < 32) : (rotr x a ^^^ rotr x b ^^^ rotr x c).getLsbD i =
      (x.getLsbD ((i + a) % 32) ^^ x.getLsbD ((i + b) % 32) ^^ x.getLsbD ((i + c) % 32)) := by
  rw [BitVec.getLsbD_xor, BitVec.getLsbD_xor, rotr_getLsbD x a hi, rotr_getLsbD x b hi, rotr_getLsbD x c hi,
    Nat.mod_eq_of_lt ha, Nat.mod_eq_of_lt hb, Nat.mod_eq_of_lt hc]

/-- The form of σ0 and σ1: two rotations and a shift (R106, R107). -/
theorem rotr_xor_rotr_xor_shr_getLsbD (x : Word) {a b i : Nat} (c : Fin 32) (ha : a < 32) (hb : b < 32)
    (hi : i < 32) : (rotr x a ^^^ rotr x b ^^^ shr x c).getLsbD i =
      (x.getLsbD ((i + a) % 32) ^^ x.getLsbD ((i + b) % 32) ^^ x.getLsbD (i + c.val)) := by
  rw [BitVec.getLsbD_xor, BitVec.getLsbD_xor, rotr_getLsbD x a hi, rotr_getLsbD x b hi, shr_getLsbD,
    Nat.mod_eq_of_lt ha, Nat.mod_eq_of_lt hb]

/-! ## The statements of 40_bitwise.md -/

/-- Settles O39: each bit of a rotation is one bit of x, and 0 and 32 are whole turns. -/
theorem rotrMovesEachBit : Obligations.RotrMovesEachBit := fun x n =>
  ⟨rfl, fun _ hi => rotr_getLsbD x n hi, rotr_of_mod_eq_zero x (by decide), rotr_of_mod_eq_zero x (by decide)⟩

/-- Settles O40: XOR, AND and NOT act on each bit alone, and each sigma function has one of two forms. -/
theorem wordPrimitivesBitByBit : Obligations.WordPrimitivesBitByBit := by
  intro x y z n i hi
  refine ⟨shr_getLsbD x n i, ch_getLsbD x y z hi, maj_getLsbD x y z i, ?bigSigma0, ?bigSigma1, ?smallSigma0,
    ?smallSigma1⟩
  case bigSigma0 => exact rotr_xor_rotr_xor_rotr_getLsbD x (by decide) (by decide) (by decide) hi
  case bigSigma1 => exact rotr_xor_rotr_xor_rotr_getLsbD x (by decide) (by decide) (by decide) hi
  case smallSigma0 => exact rotr_xor_rotr_xor_shr_getLsbD x 3 (by decide) (by decide) hi
  case smallSigma1 => exact rotr_xor_rotr_xor_shr_getLsbD x 10 (by decide) (by decide) hi

/-- Settles O42: the sum modulo 2^32 is addMod32's value, and each operand is one bit-vector addition. -/
theorem addMod32IsTheSumModulo : Obligations.AddMod32IsTheSumModulo := by
  refine ⟨addMod32_toNat, fun a b c d e => ?_⟩
  simp only [addMod32_cons, addMod32_nil, add_zero, add_assoc, and_self]

end Sys2Proof.Machine
end

section
/-! PROOFS, family 41_preprocess.md: the bits of a padded message, the Words of a block, and how FINALIZE pads the Buffer and
compresses its tail. -/

namespace Sys2Proof.Machine

/-! ## The bytes and bits of be64 and of byte strings -/

theorem be64_getElem (v : BitVec 64) (j : Nat) (h : j < 8) : (be64 v)[j] = v.extractLsb' (56 - 8 * j) 8 := by
  simp [be64]

/-- Byte j of be64 as a number (00_scope.md R9). -/
theorem be64_getElem_toNat (v : BitVec 64) (j : Nat) (h : j < 8) :
    ((be64 v)[j]).toNat = v.toNat / 2 ^ (56 - 8 * j) % 2 ^ 8 := by
  rw [be64_getElem, BitVec.extractLsb'_toNat, Nat.shiftRight_eq_div_pow]

/-- Bit k of byte j of be64, both most significant first, is bit 8j + k (R9). -/
theorem be64_getMsbD (v : BitVec 64) (j k : Fin 8) : ((be64 v)[j]).getMsbD k = v.getMsbD (8 * j + k) := by
  have hin : 56 - 8 * j.val + 8 - k.val ≤ 64 := by omega
  have hbit : 64 - (56 - 8 * j.val + 8 - k.val) = 8 * j.val + k.val := by omega
  rw [Fin.getElem_fin, be64_getElem, BitVec.getMsbD_extractLsb', decide_eq_true k.isLt, decide_eq_true hin, hbit,
    Bool.true_and, Bool.true_and]

theorem bitsOfBytes_append (a b : List Byte) : bitsOfBytes (a ++ b) = bitsOfBytes a ++ bitsOfBytes b :=
  List.flatMap_append

theorem bitsOfBytes_length (m : List Byte) : (bitsOfBytes m).length = 8 * m.length := by
  simp [bitsOfBytes, Nat.mul_comm]

/-- The byte 0x80 is the 1 bit of R120 and seven of its 0 bits. -/
theorem bitsOfBytes_marker : bitsOfBytes [0x80] = [true] ++ List.replicate 7 false := by decide

theorem bitsOfBytes_replicate_zero (z : Nat) : bitsOfBytes (List.replicate z 0x00) = List.replicate (8 * z) false := by
  induction z with
  | zero => rfl
  | succ z ih =>
    have hbyte : bitsOfBytes [0x00] = List.replicate 8 false := by decide
    rw [Nat.mul_succ, List.replicate_succ', bitsOfBytes_append, ih, hbyte, List.replicate_append_replicate]

/-- The eight bytes of be64 hold the 64 bits in order, most significant first. -/
theorem bitsOfBytes_be64 (v : BitVec 64) : bitsOfBytes (be64 v).toList = List.ofFn fun i : Fin 64 => v.getMsbD i := by
  have hbytes : (be64 v).toList = List.ofFn fun j : Fin 8 => (be64 v)[j] := by
    rw [← Vector.toList_ofFn]
    exact congrArg _ Vector.ofFn_getElem.symm
  calc bitsOfBytes (be64 v).toList
    _ = (List.ofFn fun j : Fin 8 => List.ofFn fun k : Fin 8 => ((be64 v)[j]).getMsbD k).flatten := by
      rw [bitsOfBytes, List.flatMap_def, hbytes, List.map_ofFn]
      rfl
    _ = (List.ofFn fun j : Fin 8 => List.ofFn fun k : Fin 8 => v.getMsbD (8 * j + k)).flatten := by
      simp only [be64_getMsbD]
    _ = List.ofFn fun i : Fin 64 => v.getMsbD i := (List.ofFn_mul' (m := 8) (n := 8) fun i => v.getMsbD i).symm

/-! ## The padding of a message -/

/-- Bit j of the length field, most significant first (41_preprocess.md R120). -/
theorem getMsbD_ofNat (L : Nat) (j : Fin 64) :
    (BitVec.ofNat 64 L).getMsbD j = decide (L / 2 ^ (63 - j.val) % 2 = 1) := by
  have hin : 63 - j.val < 64 := by omega
  rw [BitVec.getMsbD_eq_getLsbD, BitVec.getLsbD_ofNat, Nat.testBit_eq_decide_div_mod_eq, decide_eq_true j.isLt,
    decide_eq_true hin, Bool.true_and, Bool.true_and]

/-- On whole bytes the 0 bits of R120 are the last seven bits of 0x80 and the zero bytes of R121. -/
theorem padZeroBits_eq (n : Nat) : padZeroBits (8 * n) = 7 + 8 * padZeroBytes n := by
  unfold padZeroBits padZeroBytes
  omega

/-- The 0 bits bring the length to 448 modulo 512 (R120). -/
theorem padZeroBits_mod (n : Nat) : (n + 1 + padZeroBits n) % 512 = 448 := by
  unfold padZeroBits
  omega

/-- No fewer 0 bits do (R120): there are fewer than 512, and two numbers of them that do differ by a multiple of 512. -/
theorem padZeroBits_minimal (n : Nat) {k : Nat} (hk : k < padZeroBits n) : (n + 1 + k) % 512 ≠ 448 := by
  unfold padZeroBits at hk
  omega

/-- `pad` on bits and `pad` on bytes give the same bits (R120, R121). -/
theorem padBits_bitsOfBytes (m : List Byte) : padBits (bitsOfBytes m) = bitsOfBytes (pad m) := by
  simp only [pad, padBits, bitsOfBytes_append, bitsOfBytes_length, bitsOfBytes_marker, bitsOfBytes_replicate_zero,
    bitsOfBytes_be64, padZeroBits_eq, ← List.replicate_append_replicate, List.append_assoc]

/-- The padded message is a number of whole blocks (R121). -/
theorem pad_length_mod (m : List Byte) : (pad m).length % 64 = 0 := by
  rw [pad_length]
  unfold padZeroBytes
  omega

/-! ## The Words of a block -/

/-- Byte k of Word i, most significant first, is byte 4i + k of the block (R124). -/
theorem wordByte_parseWords (B : Block) {i : Nat} (hi : i < 16) (k : Fin 4) :
    wordByte (parseWords B)[i] k = B[4 * i + k.val] := by
  obtain ⟨h0, h1, h2, h3⟩ := wordByte_be32 B[4 * i] B[4 * i + 1] B[4 * i + 2] B[4 * i + 3]
  rw [parseWords_getElem]
  match k with
  | 0 => exact h0
  | 1 => exact h1
  | 2 => exact h2
  | 3 => exact h3

/-! ## The padded Buffer, part by part (R127) -/

/-- The bytes of the tail blocks: one block for at most 55 buffered bytes, else two (R122, R127). -/
theorem tailBlocks_bytes (r : Nat) : 64 * tailBlocks r = if r ≤ 55 then 64 else 128 := by
  unfold tailBlocks
  split <;> rfl

section
variable (s : State)

/-- The buffered bytes, and the bytes past the tail, keep their values. -/
theorem paddedBuffer_kept {k : Nat} (hk : k < 128) (h : k < s.bufLen ∨ 64 * tailBlocks s.bufLen ≤ k) :
    (paddedBuffer s)[k] = s.buf[k] := by
  rw [paddedBuffer_getElem]
  by_cases hlt : k < s.bufLen
  · rw [if_pos hlt]
  · have hend : 64 * tailBlocks s.bufLen ≤ k := h.resolve_left hlt
    have hne : k ≠ s.bufLen := by
      rw [tailBlocks_bytes] at hend
      split at hend <;> omega
    rw [if_neg hlt, if_neg hne, if_neg (by omega), dif_neg (by omega)]

/-- The byte after the buffered ones is 0x80. -/
theorem paddedBuffer_marker (h : s.bufLen < 128) : (paddedBuffer s)[s.bufLen] = 0x80 := by
  rw [paddedBuffer_getElem, if_neg (lt_irrefl _), if_pos rfl]

/-- Zero bytes follow up to the length field. -/
theorem paddedBuffer_zero {k : Nat} (hk : k < 128) (hr : s.bufLen < k) (h : k < 64 * tailBlocks s.bufLen - 8) :
    (paddedBuffer s)[k] = 0x00 := by
  rw [paddedBuffer_getElem, if_neg (by omega), if_neg (by omega), if_pos h]

/-- The length field is the last 8 bytes of the tail, past the 0x80: FINALIZE starts with at most 63 bytes buffered. -/
theorem paddedBuffer_length {j : Nat} (hb : s.bufLen ≤ 63) (hj : j < 8) (h : 64 * tailBlocks s.bufLen - 8 + j < 128) :
    (paddedBuffer s)[64 * tailBlocks s.bufLen - 8 + j] = (be64 (8 * s.byteCount))[j] := by
  have hfield : s.bufLen < 64 * tailBlocks s.bufLen - 8 := by
    rw [tailBlocks_bytes]
    split <;> omega
  rw [paddedBuffer_getElem, if_neg (by omega), if_neg (by omega), if_neg (by omega), dif_pos (by omega)]
  simp only [Nat.add_sub_cancel_left]

end

/-- Eight times a counter in its domain fits the length field (R205 of 60_exceptions.md). -/
theorem bitLength_toNat {c : BitVec 64} (h : c.toNat ≤ Config.maxMessageBytes) : (8 * c).toNat = 8 * c.toNat := by
  have h8 : (8 : BitVec 64).toNat = 8 := rfl
  unfold Config.maxMessageBytes at h
  rw [BitVec.toNat_mul, h8, Nat.mod_eq_of_lt (by omega)]

/-! ## The tail blocks, and words with the OPCODE of a command that takes no operand -/

/-- PadTail with at most 55 bytes buffered compresses one block of the padded Buffer (R127). -/
theorem padTail_of_le {s : State} (h : s.bufLen ≤ 55) :
    padTail s = compressBytes (bufBlock (paddedBuffer s) 0) { s with buf := paddedBuffer s } := by
  rw [padTail, if_pos (tailBlocks_of_le h)]

/-- PadTail with 56 bytes or more buffered compresses both blocks of the padded Buffer, in order (R127). -/
theorem padTail_of_ge {s : State} (h : 56 ≤ s.bufLen) :
    padTail s = compressBytes (bufBlock (paddedBuffer s) 1)
      (compressBytes (bufBlock (paddedBuffer s) 0) { s with buf := paddedBuffer s }) := by
  rw [padTail, if_neg (by rw [tailBlocks_of_gt h]; decide)]
  rfl

/-- A word with the OPCODE of FINALIZE, RESET or WIPE that is not the command's word is no command (30_encoding.md R86, R87). -/
theorem decode_of_ne_noOperandWord {c : Word} {k : Nat} (hk : k = 2 ∨ k = 3 ∨ k = 4) (hop : c.toNat % 2 ^ 8 = k)
    (hc : c ≠ BitVec.ofNat 32 k) : ∃ e, decode c = .error e := by
  by_cases hr : c.toNat / 2 ^ 15 = 0
  · refine ⟨_, decode_of_len_ne_zero hr (hop ▸ hk) fun hl => hc ?_⟩
    exact (eq_ofNat_iff_fields c (by omega)).2 ⟨hr, hop, hl⟩
  · exact ⟨_, decode_of_rsvd_ne_zero hr⟩

/-- Such a word, written to CMD, sets ERR = ILLEGAL_CMD and nothing else (R84). -/
theorem perform_of_ne_noOperandWord {s : State} (hinv : s.Inv) {c : Word} {k : Nat} (hk : k = 2 ∨ k = 3 ∨ k = 4)
    (hop : c.toNat % 2 ^ 8 = k) (hc : c ≠ BitVec.ofNat 32 k) :
    perform (.memWrite 0x000 4 c) s = .next { s with err := .illegalCmd } := by
  obtain ⟨e, he⟩ := decode_of_ne_noOperandWord hk hop hc
  exact (perform_illegalWrite s he).trans (rejectCommand_eq (commandStartOk_of_inv hinv))

section
variable {s : State} (hinv : s.Inv)
include hinv

/-- FINALIZE of a FINALIZED engine only sets ERR (44_controller.md R174). -/
theorem exec_finalize_of_finalized (hf : s.fsm = .finalized) : exec .finalize s = .next { s with err := .ok } := by
  rw [exec, execFinalize_eq (commandStartOk_of_inv hinv), if_pos hf, finishOk]

/-- FINALIZE of an engine that is not FINALIZED is PadTail, then the last lines (R174). -/
theorem exec_finalize_of_not_finalized (hf : s.fsm ≠ .finalized) :
    exec .finalize s = .next (enterFinalized (padTail s)) := by
  rw [exec, execFinalize_eq (commandStartOk_of_inv hinv), if_neg hf]

end

/-! ## The statements of 41_preprocess.md -/

/-- Settles O18: each part of the Buffer is one of the padded Buffer's, and the blocks are compressed one after the other. -/
theorem finalizePadsAndCompressesTheTail : Obligations.FinalizePadsAndCompressesTheTail := by
  intro s hinv
  have ⟨hb, hc, _, _⟩ := hinv
  refine ⟨exec_finalize_of_finalized hinv, fun hf => ⟨_, exec_finalize_of_not_finalized hinv hf, rfl, rfl, rfl,
      padTail_byteCount s, padTail_din s, padTail_pending s, padTail_reads s, padTail_powerOns s, ?buffer, ?blocks,
      fun i => rfl⟩, decode_finalize rfl rfl rfl, fun c => perform_of_ne_noOperandWord hinv (.inl rfl)⟩
  case buffer =>
    simp only [enterFinalized_buf, padTail_buf, ← tailBlocks_bytes]
    refine ⟨fun k hk => paddedBuffer_kept s hk, paddedBuffer_marker s, fun k hk => paddedBuffer_zero s hk, fun j h hj => ?_⟩
    rw [paddedBuffer_length s hb hj h, be64_getElem_toNat, bitLength_toNat hc]
  case blocks =>
    simp only [enterFinalized_buf, padTail_buf]
    refine ⟨fun hle => ?_, fun hge => ?_⟩
    · rw [padTail_of_le hle]
      exact ⟨rfl, rfl⟩
    · rw [padTail_of_ge hge]
      exact ⟨rfl, rfl⟩

/-- Settles O45: a bit of a Word is a bit of one of its bytes, and these are the block's. -/
theorem parseWordsIsBigEndian : Obligations.ParseWordsIsBigEndian := by
  intro B i k b hi hk hb
  refine ⟨parseWords_getElem B i hi, ?_⟩
  rw [← wordByte_getLsbD _ ⟨k, hk⟩ b hb, wordByte_parseWords B hi]

/-- Settles O49: the bits of the byte form are those of the bit form, whose number of 0 bits is the least that fits. -/
theorem padAppendsTheMinimalBitPadding : Obligations.PadAppendsTheMinimalBitPadding := by
  intro m _
  have hblocks := pad_length_mod m
  have hbits := padBits_bitsOfBytes m
  refine ⟨padZeroBits (8 * m.length), padZeroBits_mod _, fun _ => padZeroBits_minimal _, ?bits, ?multiple, ?positive, hbits⟩
  case bits => simp only [← hbits, padBits, bitsOfBytes_length, getMsbD_ofNat]
  case multiple =>
    rw [bitsOfBytes_length]
    omega
  case positive =>
    rw [bitsOfBytes_length, pad_length]
    omega

end Sys2Proof.Machine
end

section
/-! PROOFS, family 42_schedule.md: the finished schedule is a fixed point of every step of its recurrence. -/

namespace Sys2Proof.Machine

/-- The entry a step writes (42_schedule.md R140). -/
theorem expandStep_getElem_self (W : Vector Word 64) (u : Fin 48) :
    (expandStep W u)[16 + u.val] =
      addMod32 [smallSigma1 W[14 + u.val], W[9 + u.val], smallSigma0 W[1 + u.val], W[u.val]] := by
  simp [expandStep]

/-- A step leaves the entries it reads alone, so it writes the same entry when it is run again (R140). -/
theorem expandSteps_recurrence (l : List (Fin 48)) (W : Vector Word 64) (hl : l.Pairwise (· < ·))
    {u : Fin 48} (hu : u ∈ l) :
    (l.foldl expandStep W)[16 + u.val] = (expandStep (l.foldl expandStep W) u)[16 + u.val] := by
  induction l generalizing W with
  | nil => cases hu
  | cons v l ih =>
    obtain ⟨hlater, hl⟩ := List.pairwise_cons.1 hl
    rcases List.mem_cons.1 hu with rfl | hu
    case inr => exact ih _ hl hu
    have hwritten : ((u :: l).foldl expandStep W)[16 + u.val] = (expandStep W u)[16 + u.val] :=
      expandSteps_frame l _ _ (by omega) fun v hv => by have := hlater v hv; omega
    have hread (k : Nat) (hk : k < 16 + u.val) : ((u :: l).foldl expandStep W)[k] = W[k] :=
      expandSteps_frame _ _ _ (by omega) (List.forall_mem_cons.2
        ⟨by omega, fun v hv => by have := hlater v hv; omega⟩)
    simp (disch := omega) only [hwritten, expandStep_getElem_self, hread]

/-- No step of the recurrence writes the entries of the block (R140). -/
theorem expand_getElem_of_lt (M : Vector Word 16) {t : Nat} (h : t < 16) : (expand M)[t] = M[t] := by
  rw [expand, expandSteps_frame _ _ t (by omega) fun u _ => by omega]
  simp [h]

/-- Entry 16 + u of the finished schedule, from four entries of the same schedule (R140). -/
theorem expand_getElem_add (M : Vector Word 16) (u : Fin 48) :
    (expand M)[16 + u.val] = addMod32 [smallSigma1 (expand M)[14 + u.val], (expand M)[9 + u.val],
      smallSigma0 (expand M)[1 + u.val], (expand M)[u.val]] :=
  (expandSteps_recurrence _ _ (List.pairwise_lt_finRange 48) (List.mem_finRange u)).trans
    (expandStep_getElem_self _ u)

/-! ## The statements of 42_schedule.md -/

/-- Settles O46: the steps keep the block's entries, and entry t is the one that step t - 16 writes. -/
theorem scheduleMeetsTheRecurrence : Obligations.ScheduleMeetsTheRecurrence := by
  refine fun M t ht => ⟨expand_getElem_of_lt M, fun h16 => ?_⟩
  obtain ⟨u, rfl⟩ := Nat.exists_eq_add_of_le h16
  have hindices : 16 + u - 2 = 14 + u ∧ 16 + u - 7 = 9 + u ∧ 16 + u - 15 = 1 + u ∧ 16 + u - 16 = u := by omega
  simpa only [hindices] using expand_getElem_add M ⟨u, by omega⟩

end Sys2Proof.Machine
end

section
/-! PROOFS, family 43_compression.md: a round's sums as bit-vector sums, and the working registers after each number of rounds. -/

namespace Sys2Proof.Machine

/-- The working registers after the first n rounds (43_compression.md R152). -/
def registersAfter (n : Nat) (H : Vector Word 8) (W : Vector Word 64) : Vector Word 8 :=
  ((List.finRange 64).take n).foldl (fun v t => compressionRound t v W[t]) H

/-- Before the first round the working registers are the copy of the HashState (R152). -/
theorem registersAfter_zero (H : Vector Word 8) (W : Vector Word 64) : registersAfter 0 H W = H := rfl

/-- Round t follows the t rounds before it (R152). -/
theorem registersAfter_succ (H : Vector Word 8) (W : Vector Word 64) (t : Fin 64) :
    registersAfter (t.val + 1) H W = compressionRound t (registersAfter t.val H W) W[t] := by
  have htake : (List.finRange 64).take (t.val + 1) = (List.finRange 64).take t.val ++ [t] := by
    rw [List.take_succ_eq_append_getElem (by simp), List.getElem_finRange, Fin.cast_mk]
  simp only [registersAfter, htake, List.foldl_concat]

/-- The compression's working registers are those after all 64 rounds (R152). -/
theorem compressBlock_registers (H : Vector Word 8) (W : Vector Word 64) : (compressBlock H W).2 = registersAfter 64 H W := by
  rw [registersAfter, List.take_of_length_le (List.length_finRange).le]
  rfl

/-- The feed-forward adds to each Word of the HashState the working register of its position (R152). -/
theorem compressBlock_feedForward (H : Vector Word 8) (W : Vector Word 64) (i : Fin 8) :
    (compressBlock H W).1[i] = H[i] + (compressBlock H W).2[i] := by
  simp [compressBlock, feedForward, addMod32_cons, addMod32_nil]

/-! ## The statements of 43_compression.md -/

/-- Settles O47: the unbounded sums of R151 are bit-vector sums. -/
theorem roundComputesTheNewWorkingRegisters : Obligations.RoundComputesTheNewWorkingRegisters := by
  intro t a b c d e f g h Wt
  simp only [add_assoc, compressionRound, addMod32_cons, addMod32_nil, add_zero]
  rfl

/-- Settles O48: the sequence is the working registers after each number of rounds. -/
theorem compressBlockRunsSixtyFourRounds : Obligations.CompressBlockRunsSixtyFourRounds := by
  intro H W
  have hlast := compressBlock_registers H W
  refine ⟨fun n => registersAfter n H W, registersAfter_zero H W, registersAfter_succ H W, hlast, fun i => ?_⟩
  rw [compressBlock_feedForward, hlast]

end Sys2Proof.Machine
end

section
/-! PROOFS, family 44_controller.md: the chunk's place in the Buffer, what Absorb changes and keeps, and the whole effect of UPDATE,
RESET and WIPE. -/

namespace Sys2Proof.Machine

/-! ## The Buffer with the chunk appended, and with a block removed (R172) -/

section
variable (s : State) {n : Nat}

/-- Chunk byte j stands at position bufLen + j. -/
theorem appendedBuffer_chunk (j : Fin 64) (h : s.bufLen + j.val < 128) (hj : j.val < n) :
    (appendedBuffer n s)[s.bufLen + j.val] = dinByte s.din j := by
  have hsub : s.bufLen + j.val - s.bufLen = j.val := Nat.add_sub_cancel_left ..
  rw [appendedBuffer_getElem, dif_pos (by omega)]
  simp only [hsub]

/-- Before and behind the chunk the Buffer is as it was. -/
theorem appendedBuffer_kept {k : Nat} (hk : k < 128) (h : k < s.bufLen ∨ s.bufLen + n ≤ k) :
    (appendedBuffer n s)[k] = s.buf[k] := by
  rw [appendedBuffer_getElem, dif_neg (by omega)]

end

/-- Removing a block copies bytes 64..127 to the front and leaves them where they stand too. -/
theorem shiftedBuffer_halves (buf : Vector Byte 128) (k : Nat) (h : k < 64) :
    (shiftedBuffer buf)[k] = buf[64 + k] ∧ (shiftedBuffer buf)[64 + k] = buf[64 + k] := by
  constructor
  · rw [shiftedBuffer_getElem, dif_pos h]
  · rw [shiftedBuffer_getElem, dif_neg (by omega)]

/-! ## Absorb and UPDATE -/

/-- A counter that stays in its domain does not wrap (60_exceptions.md R205). -/
theorem byteCount_add_toNat {c : BitVec 64} {n : Nat} (h : c.toNat + n ≤ Config.maxMessageBytes) :
    (c + BitVec.ofNat 64 n).toNat = c.toNat + n := by
  unfold Config.maxMessageBytes at h
  rw [BitVec.toNat_add, BitVec.toNat_ofNat]
  omega

section
variable {s t : State} {n : Nat} (hn : n ≤ 64) (hb : s.bufLen ≤ 63)
include hn hb

/-- Absorb answers next where the counter stays in its domain (R172). -/
theorem absorb_of_le (hc : s.byteCount.toNat + n ≤ Config.maxMessageBytes) : ∃ t, absorb n s = .next t := by
  obtain ⟨hgt, -⟩ | ⟨-, -, ha⟩ | ⟨-, -, ha⟩ := absorb_cases n s hn hb
  · omega
  · exact ⟨_, ha⟩
  · exact ⟨_, ha⟩

/-- Absorb adds the length of the chunk to the counter (R172). -/
theorem absorb_byteCount_toNat (h : absorb n s = .next t) : t.byteCount.toNat = s.byteCount.toNat + n := by
  obtain ⟨hc, ⟨-, rfl⟩ | ⟨-, rfl⟩⟩ := absorb_next hn hb h <;> simpa using byteCount_add_toNat hc

/-- Absorb changes nothing of the host's: the events to come, the values read, the count of resets (R172). -/
theorem absorb_host (h : absorb n s = .next t) :
    t.pending = s.pending ∧ t.reads = s.reads ∧ t.powerOns = s.powerOns := by
  obtain ⟨-, ⟨-, rfl⟩ | ⟨-, rfl⟩⟩ := absorb_next hn hb h <;> simp

end

/-- UPDATE of a legal chunk that Absorb takes is Absorb, then UPDATING and OK (R173). -/
theorem exec_update_of_absorb {s a : State} {len : Nat} (hinv : s.Inv) (hl : len ≤ 64) (hf : s.fsm ≠ .finalized)
    (ha : absorb len s = .next a) : exec (.update len) s = .next (finishOk { a with fsm := .updating }) := by
  rw [exec, execUpdate_eq (commandStartOk_of_inv hinv), if_neg (not_lt.2 hl), if_neg hf, ha, andThen_next]

/-- The word of UPDATE, as a number (30_encoding.md R80, R83). -/
theorem decode_updateWord {len : Nat} (h : len ≤ 127) : decode (BitVec.ofNat 32 (len * 2 ^ 8 + 1)) = .ok (.update len) := by
  have hword : (BitVec.ofNat 32 (len * 2 ^ 8 + 1)).toNat = len * 2 ^ 8 + 1 := by
    rw [BitVec.toNat_ofNat, Nat.mod_eq_of_lt (by omega)]
  have hlen : (BitVec.ofNat 32 (len * 2 ^ 8 + 1)).toNat / 2 ^ 8 % 2 ^ 7 = len := by omega
  rw [decode_update (by omega) (by omega), hlen]

/-! ## The statements of 44_controller.md -/

/-- Settles O16: Absorb says what UPDATE does to the counter, the Buffer and HashState; the rest is the order of its errors. -/
theorem updateAppendsChunkAndCompressesFullBlock : Obligations.UpdateAppendsChunkAndCompressesFullBlock := by
  intro s len hinv
  have ⟨hb, _⟩ := hinv
  refine ⟨exec_update_invalidState hinv, exec_update_messageTooLong hinv, ?absorbed, decode_updateWord,
    fun hl _ => exec_update_badLen hinv hl, fun c _ hr => ?rejected⟩
  case absorbed =>
    intro hl hf hc
    obtain ⟨a, ha⟩ := absorb_of_le hl hb hc
    have hcount := absorb_byteCount_toNat hl hb ha
    have hdin := absorb_din hl hb ha
    obtain ⟨hpending, hreads, hpowerOns⟩ := absorb_host hl hb ha
    refine ⟨_, appendedBuffer len s, exec_update_of_absorb hinv hl hf ha, hcount, rfl, rfl, hdin, hpending, hreads, hpowerOns,
      appendedBuffer_chunk s, fun k hk => appendedBuffer_kept s hk, ?_⟩
    obtain ⟨-, ⟨hlt, rfl⟩ | ⟨hge, rfl⟩⟩ := absorb_next hl hb ha
    · exact .inl (by simpa using hlt)
    · refine .inr ⟨hge, by simp, fun k hk => by simpa using shiftedBuffer_halves _ k hk, bufBlock (appendedBuffer len s) 0,
        fun k hk => by simp [bufBlock_getElem _ _ k hk], by simp, by simp [compressBlock]⟩
  case rejected =>
    exact (perform_illegalWrite s (decode_of_rsvd_ne_zero hr)).trans (rejectCommand_eq (commandStartOk_of_inv hinv))

/-- Settles O13: RESET is Init and OK, and its OPCODE stands in one command word only. -/
theorem resetReturnsToReady : Obligations.ResetReturnsToReady := fun _ hinv =>
  ⟨rfl, execReset_eq (commandStartOk_of_inv hinv), decode_reset rfl rfl rfl,
    fun _ => perform_of_ne_noOperandWord hinv (.inr (.inl rfl))⟩

/-- Settles O14: WIPE clears the storage, and Init and OK leave it clear; its OPCODE stands in one command word only. -/
theorem wipeClearsStorageAndReturnsToReady : Obligations.WipeClearsStorageAndReturnsToReady := by
  refine fun s hinv => ⟨⟨_, execWipe_eq (commandStartOk_of_inv hinv), ?buf, ?W, ?wr, ?din, rfl, rfl, rfl, rfl, rfl, rfl, rfl, rfl⟩,
    decode_wipe rfl rfl rfl, fun c => perform_of_ne_noOperandWord hinv (.inr (.inr rfl))⟩
  all_goals simp

end Sys2Proof.Machine
end

section
/-! PROOFS, family 60_exceptions.md: UPDATE is refused only past the counter's domain, and HASH, whose counter starts at 0, completes. -/

namespace Sys2Proof.Machine

section
variable {s : State} {len : Nat} (hinv : s.Inv) (hl : len ≤ 64)
include hinv hl

/-- UPDATE of a legal chunk is refused exactly where the counter would pass its domain (60_exceptions.md R205). -/
theorem exec_update_refused_iff (hf : s.fsm ≠ .finalized) :
    exec (.update len) s = .refused .messageTooLong ↔ Config.maxMessageBytes < s.byteCount.toNat + len := by
  refine ⟨fun hrefused => ?_, exec_update_messageTooLong hinv hl hf⟩
  by_contra hc
  have ⟨hb, _⟩ := hinv
  obtain ⟨a, ha⟩ := absorb_of_le hl hb (not_lt.1 hc)
  rw [exec_update_of_absorb hinv hl hf ha] at hrefused
  cases hrefused

/-- HASH of a legal chunk always completes: Init sets the counter to 0, so Absorb takes the chunk (44_controller.md R177). -/
theorem exec_hash_completes :
    ∃ a, absorb len (init s) = .next a ∧ exec (.hash len) s = .next (enterFinalized (padTail a)) := by
  have hc : (init s).byteCount.toNat + len ≤ Config.maxMessageBytes := by
    have h0 : (init s).byteCount.toNat = 0 := by simp
    rw [h0, Config.maxMessageBytes]
    omega
  obtain ⟨a, ha⟩ := absorb_of_le hl (by simp) hc
  refine ⟨a, ha, ?_⟩
  rw [exec, execHash_eq (commandStartOk_of_inv hinv), if_neg (not_lt.2 hl), ha, andThen_next]

end

/-- Settles O10: Absorb decides UPDATE's refusal, and after Init it has none to give to HASH. -/
theorem messagePastDomainLimitIsRefused : Obligations.MessagePastDomainLimitIsRefused := by
  refine fun s len hinv hl => ⟨exec_update_refused_iff hinv hl, fun hrefused => ?_⟩
  obtain ⟨a, -, hcompletes⟩ := exec_hash_completes hinv hl
  rw [hcompletes] at hrefused
  cases hrefused

end Sys2Proof.Machine
end

section
/-! PROOFS, family other: encoding and decoding are inverse to each other, and the words a step runs. -/

namespace Sys2Proof

/-! ## Command words and their fields -/

/-- A word with RSVD 0 is the command word of its LEN and OPCODE (30_encoding.md R80). -/
theorem commandWord_of_fields {c : Word} {len : Nat} {op : BitVec 8} (hr : c.toNat / 2 ^ 15 = 0)
    (hop : c.toNat % 2 ^ 8 = op.toNat) (hl : c.toNat / 2 ^ 8 % 2 ^ 7 = len) : commandWord len op = c := by
  apply BitVec.eq_of_toNat_eq
  rw [commandWord_toNat _ _ (by omega)]
  omega

/-- The three fields of a command word (R80, R81). -/
theorem commandWord_fields {len : Nat} (op : BitVec 8) (h : len ≤ 127) :
    (commandWord len op).toNat / 2 ^ 15 = 0 ∧ (commandWord len op).toNat % 2 ^ 8 = op.toNat ∧
      (commandWord len op).toNat / 2 ^ 8 % 2 ^ 7 = len := by
  have := op.isLt
  rw [commandWord_toNat _ _ h]
  omega

/-! ## The statements about encoding -/

/-- Settles O1: the fields of a command's word are its row's OPCODE and its LEN, and on these decoding selects the row. -/
theorem decodeOfEncodeIsTheCommand : Obligations.DecodeOfEncodeIsTheCommand := by
  intro i hwf
  cases i with
  | update len =>
    obtain ⟨hr, hop, hl⟩ := commandWord_fields 0x01 hwf
    exact (decode_update hr hop).trans (by rw [hl])
  | finalize => exact decode_finalize rfl rfl rfl
  | reset => exact decode_reset rfl rfl rfl
  | wipe => exact decode_wipe rfl rfl rfl
  | hash len =>
    obtain ⟨hr, hop, hl⟩ := commandWord_fields 0x05 hwf
    exact (decode_hash hr hop).trans (by rw [hl])

/-- Settles O2: decoding fixes all three fields, and these are the whole word. -/
theorem encodeOfDecodedWordIsTheWord : Obligations.EncodeOfDecodedWordIsTheWord := by
  intro c i h
  have hlen : c.toNat / 2 ^ 8 % 2 ^ 7 ≤ 127 := by omega
  by_cases hr : c.toNat / 2 ^ 15 = 0
  case neg => rw [decode_of_rsvd_ne_zero hr] at h; cases h
  rw [decode_eq, if_neg (not_not.2 hr)] at h
  split_ifs at h with h1 h2 hl h3 hl h4 hl h5 <;> cases h
  · exact ⟨hlen, commandWord_of_fields hr h1 rfl⟩
  · exact ⟨trivial, commandWord_of_fields hr h2 (not_not.1 hl)⟩
  · exact ⟨trivial, commandWord_of_fields hr h3 (not_not.1 hl)⟩
  · exact ⟨trivial, commandWord_of_fields hr h4 (not_not.1 hl)⟩
  · exact ⟨hlen, commandWord_of_fields hr h5 rfl⟩

/-- Settles O4: each word by the numbers in its fields. -/
theorem commandWordsDecodeAsWritten : Obligations.CommandWordsDecodeAsWritten :=
  ⟨decode_update rfl rfl, decode_update rfl rfl, decode_finalize rfl rfl rfl, decode_reset rfl rfl rfl, decode_wipe rfl rfl rfl,
    decode_hash rfl rfl, decode_of_reservedOpcode rfl (.inl rfl), decode_of_rsvd_ne_zero (by decide)⟩

end Sys2Proof

namespace Sys2Proof.Machine

/-- Settles O5: a write at offset 0 is a write of CMD. -/
theorem stepRunsTheDecodedCommand : Obligations.StepRunsTheDecodedCommand := fun _ _ _ _ => step_commandWrite

/-- Settles O6: the empty list is step's first case. -/
theorem engineWithoutEventHoldsItsState : Obligations.EngineWithoutEventHoldsItsState := fun _ => step_of_nil

/-- A table word that decodes is, taken as a Word, the command's word (30_encoding.md R88). -/
theorem decode_of_decodeTableWord {nbits w : Nat} {i : Instr} (h : decodeTableWord nbits w = some i) :
    decode (BitVec.ofNat 32 (w % 2 ^ nbits)) = .ok i := by
  unfold decodeTableWord at h
  split at h
  case isFalse => cases h
  cases hd : decode (BitVec.ofNat 32 (w % 2 ^ nbits)) with
  | ok j => rw [hd] at h; cases h; rfl
  | error e => rw [hd] at h; cases h

/-- Settles O7: the pending event is the write of a word that decodes to the command. -/
theorem fetchedTableWordRuns : Obligations.FetchedTableWordRuns := fun _ _ _ h =>
  step_commandWrite rfl (decode_of_decodeTableWord h)

end Sys2Proof.Machine
end

section
/-! PROOFS, family other: the invariant between commands. Every step keeps it, and a state that meets it never faults. -/

namespace Sys2Proof.Machine

/-! ## What keeps the invariant -/

theorem poweredOn_inv (b : Vector Byte 128) (W : Vector Word 64) (v : Vector Word 8) : (State.poweredOn b W v).Inv :=
  ⟨Nat.zero_le _, Nat.zero_le _, fun _ => rfl, fun _ => rfl⟩

theorem powerOn_inv (s : State) : (powerOn s).Inv := ⟨Nat.zero_le _, Nat.zero_le _, fun _ => rfl, fun _ => rfl⟩

theorem init_inv (s : State) : (init s).Inv := ⟨Nat.zero_le _, Nat.zero_le _, fun _ => rfl, fun _ => rfl⟩

/-- A FINALIZED engine has an empty Buffer, so the counter's domain is all the invariant asks (10_state.md R45). -/
theorem enterFinalized_inv {s : State} (hc : s.byteCount.toNat ≤ Config.maxMessageBytes) : (enterFinalized s).Inv :=
  ⟨Nat.zero_le _, hc, fun h => absurd rfl h, fun _ => rfl⟩

/-- Absorb leaves the controller state to the command (44_controller.md R172). -/
theorem absorb_fsm {n : Nat} {s t : State} (hn : n ≤ 64) (hb : s.bufLen ≤ 63) (h : absorb n s = .next t) :
    t.fsm = s.fsm := by
  obtain ⟨-, ⟨-, rfl⟩ | ⟨-, rfl⟩⟩ := absorb_next hn hb h <;> simp

/-- Absorb keeps the invariant: the fill length and the counter grow alike, and a removed block is 64 bytes (R45, R172). -/
theorem absorb_inv {n : Nat} {s t : State} (hn : n ≤ 64) (hinv : s.Inv) (hf : s.fsm ≠ .finalized)
    (h : absorb n s = .next t) : t.Inv := by
  have ⟨hb, _, hmod, _⟩ := hinv
  have hmod := hmod hf
  have hc := absorb_byteCount_toNat hn hb h
  have hfsm := absorb_fsm hn hb h
  obtain ⟨hmax, hcases⟩ := absorb_next hn hb h
  have hfill : t.bufLen = t.byteCount.toNat % 64 := by
    obtain ⟨hlt, rfl⟩ | ⟨hge, rfl⟩ := hcases
    · rw [hc, appendChunk_bufLen]; omega
    · rw [hc, drainBlock_bufLen, appendChunk_bufLen]; omega
  exact ⟨by omega, by omega, fun _ => hfill, fun ht => absurd (hfsm ▸ ht) hf⟩

/-- Every command that answers next leaves the invariant (R44, R45). -/
theorem exec_inv {i : Instr} {s t : State} (h : exec i s = .next t) : t.Inv := by
  cases i with
  | update len =>
    obtain ⟨hok, hcases⟩ := execUpdate_next h
    have hinv := (commandStartOk_iff s).1 hok
    obtain ⟨-, rfl⟩ | ⟨-, -, rfl⟩ | ⟨hl, hf, a, ha, rfl⟩ := hcases
    · exact hinv
    · exact hinv
    · have hfsm := absorb_fsm hl hinv.1 ha
      obtain ⟨hb, hc, hmod, -⟩ := absorb_inv hl hinv hf ha
      exact ⟨hb, hc, fun _ => hmod (hfsm ▸ hf), fun h => by cases h⟩
  | finalize =>
    obtain ⟨hok, hcases⟩ := execFinalize_next h
    have hinv := (commandStartOk_iff s).1 hok
    obtain ⟨-, rfl⟩ | ⟨-, rfl⟩ := hcases
    · exact hinv
    · exact enterFinalized_inv (by simpa using hinv.2.1)
  | reset =>
    obtain ⟨-, rfl⟩ := execReset_next h
    exact init_inv s
  | wipe =>
    obtain ⟨-, rfl⟩ := execWipe_next h
    exact init_inv (clearStorage s)
  | hash len =>
    obtain ⟨hok, ⟨-, rfl⟩ | ⟨hl, a, ha, rfl⟩⟩ := execHash_next h
    · exact (commandStartOk_iff s).1 hok
    · have ⟨_, hc, _⟩ := absorb_inv hl (init_inv s) (by simp) ha
      exact enterFinalized_inv (by simpa using hc)

/-- Settles O36: a command leaves the invariant, and no other event touches what it speaks of but the power-on reset. -/
theorem everyStepKeepsTheInvariant : Obligations.EveryStepKeepsTheInvariant := by
  intro s t hs h
  obtain ⟨-, rfl⟩ | ⟨e, rest, -, h⟩ := step_next h
  · exact hs
  obtain ⟨i, h⟩ | h | ⟨j, v, rfl⟩ | rfl | ⟨r, rfl⟩ | ⟨-, rfl⟩ := perform_next h
  · exact exec_inv h
  · obtain ⟨-, rfl⟩ := rejectCommand_next h
    exact hs
  · exact hs
  · exact hs
  · exact hs
  · exact powerOn_inv _

/-- Settles O34: nothing is buffered and nothing counted. -/
theorem resetStateMeetsTheInvariant : Obligations.ResetStateMeetsTheInvariant := ⟨poweredOn_inv _ _ _, poweredOn_inv⟩

/-! ## What a command can answer where the invariant holds, and where it is broken -/

/-- From the invariant a command completes, but for an UPDATE past the counter's domain (60_exceptions.md R205, R206). -/
theorem exec_of_inv {s : State} (hinv : s.Inv) (i : Instr) :
    (∃ t, exec i s = .next t) ∨
      (exec i s = .refused .messageTooLong ∧ ∃ len, i = .update len ∧ s.fsm ≠ .finalized ∧ len ≤ 64 ∧
        Config.maxMessageBytes < s.byteCount.toNat + len) := by
  have hok := commandStartOk_of_inv hinv
  cases i with
  | update len =>
    by_cases hl : len ≤ 64
    case neg => exact .inl ⟨_, exec_update_badLen hinv (not_le.1 hl)⟩
    by_cases hf : s.fsm = .finalized
    case pos => exact .inl ⟨_, exec_update_invalidState hinv hl hf⟩
    by_cases hc : s.byteCount.toNat + len ≤ Config.maxMessageBytes
    · obtain ⟨a, ha⟩ := absorb_of_le hl hinv.1 hc
      exact .inl ⟨_, exec_update_of_absorb hinv hl hf ha⟩
    · exact .inr ⟨exec_update_messageTooLong hinv hl hf (not_le.1 hc), len, rfl, hf, hl, not_le.1 hc⟩
  | finalize =>
    by_cases hf : s.fsm = .finalized
    · exact .inl ⟨_, exec_finalize_of_finalized hinv hf⟩
    · exact .inl ⟨_, exec_finalize_of_not_finalized hinv hf⟩
  | reset => exact .inl ⟨_, execReset_eq hok⟩
  | wipe => exact .inl ⟨_, execWipe_eq hok⟩
  | hash len =>
    by_cases hl : len ≤ 64
    · obtain ⟨a, -, ha⟩ := exec_hash_completes hinv hl
      exact .inl ⟨_, ha⟩
    · exact .inl ⟨_, exec_hash_badLen hinv (not_le.1 hl)⟩

/-- Every command is checked at its start (R206). -/
theorem exec_eq_atCommandStart (i : Instr) : ∃ f, ∀ s, exec i s = atCommandStart s f := by
  cases i <;> exact ⟨_, fun _ => rfl⟩

/-- A command faults where the invariant is broken (R206). -/
theorem exec_of_not_inv {s : State} (h : ¬s.Inv) (i : Instr) : exec i s = .fault .invariantViolated := by
  obtain ⟨f, hf⟩ := exec_eq_atCommandStart i
  rw [hf, atCommandStart_fault ((commandStartOk_false_iff s).2 h)]

/-- So does a rejected word (R206). -/
theorem rejectCommand_of_not_inv {s : State} (h : ¬s.Inv) : rejectCommand s = .fault .invariantViolated :=
  atCommandStart_fault ((commandStartOk_false_iff s).2 h) _

/-- What a write of a register can answer where the invariant holds: CMD as its word's command does, any other register next. -/
theorem writeReg_of_inv {s : State} (hinv : s.Inv) (r : Reg) (v : Word) :
    (∃ t, writeReg r v s = .next t) ∨
      (writeReg r v s = .refused .messageTooLong ∧ r = .cmd ∧ ∃ len, decode v = .ok (.update len) ∧ s.fsm ≠ .finalized ∧
        len ≤ 64 ∧ Config.maxMessageBytes < s.byteCount.toNat + len) := by
  cases r with
  | cmd =>
    rw [writeReg, runCommand]
    cases decode v with
    | ok i =>
      obtain ht | ⟨hr, len, rfl, hlen⟩ := exec_of_inv hinv i
      · exact .inl ht
      · exact .inr ⟨hr, rfl, len, rfl, hlen⟩
    | error e => exact .inl ⟨_, rejectCommand_eq (commandStartOk_of_inv hinv)⟩
  | status => exact .inl ⟨_, rfl⟩
  | byteCountLo => exact .inl ⟨_, rfl⟩
  | byteCountHi => exact .inl ⟨_, rfl⟩
  | reserved i => exact .inl ⟨_, rfl⟩
  | digest i => exact .inl ⟨_, rfl⟩
  | din j => exact .inl ⟨_, rfl⟩

/-- An access that keeps the host's duties reaches a register (20_memory.md R75). -/
theorem exists_reg_of_legal {off width : Nat} (h : (HostEvent.memRead off width).legal = true) :
    ∃ r : Reg, off = r.offset ∧ width = 4 := by
  simp only [HostEvent.legal, Bool.and_eq_true, decide_eq_true_eq, beq_iff_eq] at h
  obtain ⟨⟨hoff, rfl⟩, hal⟩ := h
  obtain ⟨hout, -⟩ | ⟨-, hw, -⟩ | ⟨-, -, hmis, -⟩ | ⟨-, r, hr, -⟩ := accessTarget_cases off 4
  · omega
  · exact absurd rfl hw
  · exact absurd hal hmis
  · exact ⟨r, hr, rfl⟩

/-- From the invariant no event faults (R206). -/
theorem perform_ne_fault {s : State} (hinv : s.Inv) (e : HostEvent) (f : Fault) : perform e s ≠ .fault f := by
  intro h
  cases e with
  | memRead off width =>
    rw [perform] at h
    split at h <;> cases h
  | memWrite off width v =>
    rw [perform] at h
    split at h
    · rename_i r _
      obtain ⟨t, ht⟩ | ⟨hr, -⟩ := writeReg_of_inv hinv r v
      · rw [ht] at h; cases h
      · rw [hr] at h; cases h
    · cases h
  | powerOnReset => cases h

/-- Settles O37: a legal access reaches a register, and only the write of CMD can be refused then. -/
theorem invariantStateNeverFaults : Obligations.InvariantStateNeverFaults := by
  intro s hinv
  refine ⟨fun f h => ?_, fun e rest hp hlegal => ?_⟩
  · cases hp : s.pending with
    | nil => rw [step_of_nil hp] at h; cases h
    | cons e rest =>
      rw [step_of_cons hp] at h
      exact perform_ne_fault (s := { s with pending := rest }) hinv e f h
  · cases e with
    | memRead off width =>
      obtain ⟨r, rfl, rfl⟩ := exists_reg_of_legal hlegal
      exact .inl ⟨_, step_memRead r hp⟩
    | memWrite off width v =>
      obtain ⟨r, rfl, rfl⟩ := exists_reg_of_legal hlegal
      rw [step_memWrite r hp]
      obtain ht | ⟨hr, rfl, len, hd, hlen⟩ := writeReg_of_inv (s := { s with pending := rest }) hinv r v
      · exact .inl ht
      · exact .inr ⟨hr, v, len, rfl, hd, hlen⟩
    | powerOnReset => exact .inl ⟨_, step_of_cons hp⟩

/-- Settles O9: in the order of errors the length comes first. -/
theorem overLengthOperandRaisesBadLen : Obligations.OverLengthOperandRaisesBadLen := fun _ _ hinv hl =>
  ⟨exec_update_badLen hinv hl, exec_hash_badLen hinv hl⟩

/-- Settles O11: each of the four ways breaks one part of the invariant. -/
theorem commandInViolatedStateFaults : Obligations.CommandInViolatedStateFaults := by
  intro s h
  have hbroken : ¬s.Inv := by
    rintro ⟨hb, hc, hmod, hzero⟩
    obtain h | h | ⟨hf, h⟩ | ⟨hf, h⟩ := h
    · omega
    · omega
    · exact h (hmod hf)
    · exact h (hzero hf)
  exact ⟨exec_of_not_inv hbroken, fun c e rest hd hp => (step_illegalWrite hp hd).trans (rejectCommand_of_not_inv hbroken)⟩

/-! ## Accesses outside the window, and the window after a power-on reset -/

/-- An access outside the window reaches no register, whatever its width (20_memory.md R64; log entry 9). -/
theorem accessTarget_of_outside {off : Nat} (width : Nat) (hoff : Config.windowBytes ≤ off) :
    accessTarget off width = .error .outsideWindow := by
  rw [accessTarget, dif_neg (not_lt.2 hoff)]

/-- Settles O31: the window is 0x80 bytes, and the offset is looked at first. -/
theorem accessOutsideTheWindowIsRefused : Obligations.AccessOutsideTheWindowIsRefused := fun _ _ _ _ _ hoff he hp =>
  step_refused_of_accessTarget he hp (accessTarget_of_outside _ hoff)

/-- Every register reads 0 after a power-on reset (10_state.md R48). -/
theorem readReg_poweredOn (r : Reg) (b : Vector Byte 128) (W : Vector Word 64) (v : Vector Word 8) :
    readReg r (State.poweredOn b W v) = 0 := by
  cases r with
  | cmd => rfl
  | status => exact poweredOn_status b W v
  | byteCountLo => exact (poweredOn_byteCount b W v).1
  | byteCountHi => exact (poweredOn_byteCount b W v).2
  | reserved i => rfl
  | digest i => rfl
  | din j => exact poweredOn_din b W v j

/-- The same after one in a run: no register reads what survives it. -/
theorem readReg_powerOn (r : Reg) (s : State) : readReg r (powerOn s) = 0 := by
  rw [← readReg_poweredOn r (powerOn s).buf (powerOn s).W (powerOn s).wr]
  cases r <;> rfl

/-- Settles O33: an aligned 32-bit read inside the window reaches a register, and each reads 0. -/
theorem everyRegisterReadsZeroAfterPowerOn : Obligations.EveryRegisterReadsZeroAfterPowerOn := by
  refine ⟨fun s rest hp => ⟨_, step_of_cons hp, rfl, rfl, fun off hoff hal => ?_⟩, fun b W v k => readReg_poweredOn _ b W v⟩
  have hoff : off < Config.windowBytes := hoff
  obtain ⟨r, rfl, -⟩ := exists_reg_of_legal (off := off) (width := 4) (by simp [HostEvent.legal, hoff, hal])
  simp only [perform, accessTarget_offset, readReg_powerOn]

end Sys2Proof.Machine
end

section
/-! PROOFS, family other: the Buffer holds the part of the message that is not yet folded into HashState. UPDATE, FINALIZE and HASH
keep it so, whence the digest. -/

namespace Sys2Proof.Machine

/-! ## Byte strings in blocks -/

/-- A block inside a byte string is the same in a longer one (41_preprocess.md R123). -/
theorem blockAt_append (p q : List Byte) {i : Nat} (h : 64 * i + 64 ≤ p.length) : blockAt (p ++ q) i = blockAt p i := by
  apply Vector.ext
  intro j hj
  rw [blockAt_getElem _ _ _ hj, blockAt_getElem _ _ _ hj, List.getD_append _ _ _ _ (by omega)]

/-- A byte string made longer keeps its whole blocks, and its remainder begins the blocks that follow (R123). -/
theorem parseBlocks_append (p q : List Byte) :
    parseBlocks (p ++ q) = parseBlocks p ++
      (List.range ((p.length % 64 + q.length) / 64)).map fun i => blockAt (p ++ q) (p.length / 64 + i) := by
  have hcount : (p ++ q).length / 64 = p.length / 64 + (p.length % 64 + q.length) / 64 := by
    rw [List.length_append]
    omega
  rw [parseBlocks, hcount, List.range_add, List.map_append, List.map_map, parseBlocks]
  refine congrArg₂ _ (List.map_congr_left fun i hi => ?_) rfl
  have hi := List.mem_range.1 hi
  exact blockAt_append p q (by omega)

/-- The first n bytes of the Buffer are those of p from byte 64·q on. -/
def BufferHolds (buf : Vector Byte 128) (p : List Byte) (q n : Nat) : Prop :=
  ∀ (k : Nat) (h : k < 128), k < n → buf[k] = p.getD (64 * q + k) 0

/-- A whole block that the Buffer holds is a block of the byte string. -/
theorem BufferHolds.bufBlock_eq {buf : Vector Byte 128} {p : List Byte} {q n : Nat} (h : BufferHolds buf p q n) (i : Fin 2)
    (hi : 64 * i.val + 64 ≤ n) : bufBlock buf i = blockAt p (q + i.val) := by
  apply Vector.ext
  intro j hj
  have hpos : 64 * (q + i.val) + j = 64 * q + (64 * i.val + j) := by omega
  rw [bufBlock_getElem _ _ _ hj, blockAt_getElem _ _ _ hj, h _ (by omega) (by omega), hpos]

/-- Removing a block from the Buffer moves on by one block (44_controller.md R172). -/
theorem BufferHolds.shiftedBuffer {buf : Vector Byte 128} {p : List Byte} {q n : Nat} (h : BufferHolds buf p q n)
    (hn : n ≤ 128) : BufferHolds (shiftedBuffer buf) p (q + 1) (n - 64) := by
  intro k hk hkn
  have hpos : 64 * (q + 1) + k = 64 * q + (64 + k) := by omega
  rw [(shiftedBuffer_halves buf k (by omega)).1, h _ (by omega) (by omega), hpos]

/-! ## The chunk -/

theorem chunk_length (d : Vector Word 16) {n : Nat} (hn : n ≤ 64) : (chunk d n).length = n := by
  simp [chunk, hn]

/-- Byte j of the chunk is din_byte(j) (30_encoding.md R82). -/
theorem chunk_getD (d : Vector Word 16) {n : Nat} (j : Fin 64) (hj : j.val < n) : (chunk d n).getD j.val 0 = dinByte d j := by
  rw [chunk, List.getD_eq_getElem?_getD, List.getElem?_take_of_lt hj, List.getElem?_ofFn, dif_pos j.isLt]
  rfl

/-- The Buffer with the chunk appended holds the message with the chunk appended (R172). -/
theorem appendedBuffer_holds {m : List Byte} {s : State} {n : Nat} (hn : n ≤ 64) (hlen : s.bufLen = m.length % 64)
    (h : BufferHolds s.buf m (m.length / 64) s.bufLen) :
    BufferHolds (appendedBuffer n s) (m ++ chunk s.din n) (m.length / 64) (s.bufLen + n) := by
  intro k hk hkn
  by_cases hold : k < s.bufLen
  · rw [appendedBuffer_kept s hk (.inl hold), h k hk hold, List.getD_append _ _ _ _ (by omega)]
  · obtain ⟨j, rfl⟩ := Nat.exists_eq_add_of_le (not_lt.1 hold)
    have hpos : 64 * (m.length / 64) + (s.bufLen + j) - m.length = j := by omega
    rw [appendedBuffer_chunk s ⟨j, by omega⟩ hk (by simp only; omega), List.getD_append_right _ _ _ _ (by omega), hpos,
      chunk_getD s.din ⟨j, by omega⟩ (by simp only; omega)]

/-! ## Absorb -/

/-- If the engine has absorbed m, Absorb makes it have absorbed m and the chunk (R172). -/
theorem absorb_absorbing {m : List Byte} {s t : State} {n : Nat} (hn : n ≤ 64) (habs : s.Absorbing m)
    (h : absorb n s = .next t) : t.Absorbing (m ++ chunk s.din n) := by
  have hinv := habs.inv
  have hb := hinv.1
  have ⟨hf, _, hcount, hlen, hH, hbuf⟩ := habs
  have hc := absorb_byteCount_toNat hn hb h
  have hfsm := absorb_fsm hn hb h
  have hmlen : (m ++ chunk s.din n).length = m.length + n := by rw [List.length_append, chunk_length _ hn]
  have hholds := appendedBuffer_holds hn hlen hbuf
  have hblocks := parseBlocks_append m (chunk s.din n)
  obtain ⟨hmax, hcases⟩ := absorb_next hn hb h
  refine ⟨hfsm ▸ hf, by omega, by omega, ?_⟩
  obtain ⟨hlt, rfl⟩ | ⟨hge, rfl⟩ := hcases
  · have hq : (m.length + n) / 64 = m.length / 64 := by omega
    have hnone : (m.length % 64 + (chunk s.din n).length) / 64 = 0 := by rw [chunk_length _ hn]; omega
    rw [hnone] at hblocks
    rw [hmlen, hq, hblocks]
    exact ⟨by simp only [appendChunk_bufLen]; omega, by simpa using hH, hholds⟩
  · have hq : (m.length + n) / 64 = m.length / 64 + 1 := by omega
    have hone : (m.length % 64 + (chunk s.din n).length) / 64 = 1 := by rw [chunk_length _ hn]; omega
    rw [hone] at hblocks
    rw [hmlen, hq, hblocks, hashBlocks_append, ← hH]
    refine ⟨by simp only [drainBlock_bufLen, appendChunk_bufLen]; omega, ?_, hholds.shiftedBuffer (by omega)⟩
    rw [drainBlock_hashBlocks, appendChunk_buf, hholds.bufBlock_eq 0 (by simpa using hge), List.range_one, List.map_singleton,
      appendChunk_H]
    rfl

/-! ## Padding -/

/-- The zero bytes fill the tail up to the length field (41_preprocess.md R121, R122). -/
theorem padZeroBytes_eq (L : Nat) : L % 64 + 1 + padZeroBytes L + 8 = 64 * tailBlocks (L % 64) := by
  rw [tailBlocks_bytes]
  unfold padZeroBytes
  split <;> omega

/-- What follows the message in its padding (R121). -/
def padding (L : Nat) : List Byte := [0x80] ++ List.replicate (padZeroBytes L) 0x00 ++ (be64 (BitVec.ofNat 64 (8 * L))).toList

theorem pad_eq (m : List Byte) : pad m = m ++ padding m.length := by simp [pad, padding]

theorem padding_length (L : Nat) : L % 64 + (padding L).length = 64 * tailBlocks (L % 64) := by
  simp only [← padZeroBytes_eq, padding, List.length_append, List.length_singleton, List.length_replicate, Vector.length_toList]
  omega

/-- The padded message has the message's own blocks, then the one or two of its tail (R122). -/
theorem parseBlocks_pad (m : List Byte) :
    parseBlocks (pad m) = parseBlocks m ++
      (List.range (tailBlocks (m.length % 64))).map fun i => blockAt (pad m) (m.length / 64 + i) := by
  rw [pad_eq, parseBlocks_append, padding_length, Nat.mul_div_cancel_left _ (by decide)]

section
variable (m : List Byte)

/-- The byte after the message is 0x80. -/
theorem pad_getD_marker : (pad m).getD m.length 0 = 0x80 := by
  rw [pad_eq, List.getD_append_right _ _ _ _ le_rfl, Nat.sub_self]
  rfl

/-- Zero bytes follow it. -/
theorem pad_getD_zero {j : Nat} (hj : j < padZeroBytes m.length) : (pad m).getD (m.length + 1 + j) 0 = 0x00 := by
  have hlen : (m ++ [0x80]).length = m.length + 1 := List.length_append
  rw [pad, List.getD_append _ _ _ _ (by rw [List.length_append, hlen, List.length_replicate]; omega),
    List.getD_append_right _ _ _ _ (by omega), hlen, Nat.add_sub_cancel_left, List.getD_replicate _ hj]

/-- Then the length field. -/
theorem pad_getD_length {j : Nat} (hj : j < 8) :
    (pad m).getD (m.length + 1 + padZeroBytes m.length + j) 0 = (be64 (BitVec.ofNat 64 (8 * m.length)))[j] := by
  have hlen : (m ++ [0x80] ++ List.replicate (padZeroBytes m.length) 0x00).length = m.length + 1 + padZeroBytes m.length := by
    simp only [List.length_append, List.length_singleton, List.length_replicate]
  rw [pad, List.getD_append_right _ _ _ _ (by omega), hlen, Nat.add_sub_cancel_left,
    List.getD_eq_getElem _ _ (by simpa using hj), Vector.getElem_toList]

end

/-! ## PadTail -/

/-- Eight times the counter is the bit length of what was absorbed (R127). -/
theorem bitLength_eq_ofNat {c : BitVec 64} {L : Nat} (h : c.toNat = L) : 8 * c = BitVec.ofNat 64 (8 * L) := by
  rw [← h, BitVec.ofNat_mul, BitVec.ofNat_toNat, BitVec.setWidth_eq]
  rfl

/-- PadTail's writes make the Buffer hold the padded message, to the end of its last block (R127). -/
theorem paddedBuffer_holds {m : List Byte} {s : State} (habs : s.Absorbing m) :
    BufferHolds (paddedBuffer s) (pad m) (m.length / 64) (64 * tailBlocks s.bufLen) := by
  have ⟨_, _, hcount, hlen, _, hbuf⟩ := habs
  have hb : s.bufLen ≤ 63 := habs.inv.1
  have hsize := padZeroBytes_eq m.length
  rw [← hlen] at hsize
  intro k hk hkn
  obtain hlt | rfl | hgt := lt_trichotomy k s.bufLen
  · rw [paddedBuffer_kept s hk (.inl hlt), hbuf k hk hlt, pad_eq, List.getD_append _ _ _ _ (by omega)]
  · have hpos : 64 * (m.length / 64) + s.bufLen = m.length := by omega
    rw [paddedBuffer_marker s hk, hpos, pad_getD_marker]
  by_cases hz : k < 64 * tailBlocks s.bufLen - 8
  · obtain ⟨j, rfl⟩ := Nat.exists_eq_add_of_lt hgt
    have hpos : 64 * (m.length / 64) + (s.bufLen + j + 1) = m.length + 1 + j := by omega
    rw [paddedBuffer_zero s hk hgt hz, hpos, pad_getD_zero m (by omega)]
  · obtain ⟨j, rfl⟩ := Nat.exists_eq_add_of_le (not_lt.1 hz)
    have hpos : 64 * (m.length / 64) + (64 * tailBlocks s.bufLen - 8 + j) = m.length + 1 + padZeroBytes m.length + j := by omega
    rw [paddedBuffer_length s hb (by omega) hk, hpos, pad_getD_length m (by omega)]
    simp only [bitLength_eq_ofNat hcount]

/-- PadTail completes the digest of what was absorbed (43_compression.md R155). -/
theorem padTail_sha256 {m : List Byte} {s : State} (habs : s.Absorbing m) : (padTail s).H = sha256 m := by
  have ⟨_, _, _, hlen, hH, _⟩ := habs
  have hholds := paddedBuffer_holds habs
  rw [padTail_H, sha256, parseBlocks_pad, hashBlocks_append, ← hH, ← hlen]
  by_cases hle : s.bufLen ≤ 55
  · rw [tailBlocks_of_le hle] at hholds ⊢
    have h0 := hholds.bufBlock_eq 0 (by decide)
    exact congrArg (hashBlocks s.H) (congrArg (fun B => [B]) h0)
  · rw [tailBlocks_of_gt (not_le.1 hle)] at hholds ⊢
    have h0 := hholds.bufBlock_eq 0 (by decide)
    have h1 := hholds.bufBlock_eq 1 (by decide)
    exact congrArg (hashBlocks s.H) (congrArg₂ (fun B C => [B, C]) h0 h1)

/-! ## The commands on an engine that is absorbing -/

/-- Nothing is absorbed, and nothing counted, after a power-on reset. -/
theorem poweredOn_absorbing (b : Vector Byte 128) (W : Vector Word 64) (v : Vector Word 8) :
    (State.poweredOn b W v).Absorbing [] :=
  ⟨by simp [State.poweredOn], Nat.zero_le _, rfl, rfl, rfl, fun k _ hk => absurd hk (Nat.not_lt_zero k)⟩

theorem init_absorbing (s : State) : (init s).Absorbing [] :=
  ⟨by simp, Nat.zero_le _, rfl, rfl, rfl, fun k _ hk => absurd hk (Nat.not_lt_zero k)⟩

/-- Settles O52: nothing is absorbed or counted, and IV is the fold of no block. -/
theorem freshEngineAbsorbsTheEmptyMessage : Obligations.FreshEngineAbsorbsTheEmptyMessage :=
  ⟨poweredOn_absorbing, fun s hinv => ⟨_, execReset_eq (commandStartOk_of_inv hinv), init_absorbing s⟩⟩

/-- UPDATE of a chunk that fits is Absorb, which keeps the Buffer holding the message's end. -/
theorem exec_update_absorbing {m : List Byte} {s : State} {len : Nat} (habs : s.Absorbing m) (hl : len ≤ 64)
    (hm : m.length + len ≤ Config.maxMessageBytes) :
    ∃ a, absorb len s = .next a ∧ exec (.update len) s = .next (finishOk { a with fsm := .updating }) ∧
      (finishOk { a with fsm := .updating }).Absorbing (m ++ chunk s.din len) := by
  have hinv := habs.inv
  have ⟨hf, _, hcount, _⟩ := habs
  obtain ⟨a, ha⟩ := absorb_of_le hl hinv.1 (by omega)
  obtain ⟨-, hrest⟩ := absorb_absorbing hl habs ha
  exact ⟨a, ha, exec_update_of_absorb hinv hl hf ha, by simp, hrest⟩

/-- Settles O53: UPDATE is Absorb. -/
theorem updateAbsorbsItsChunk : Obligations.UpdateAbsorbsItsChunk := by
  intro m s len habs hl hm
  obtain ⟨a, -, hexec, hnext⟩ := exec_update_absorbing habs hl hm
  exact ⟨_, hexec, hnext⟩

/-- Settles O54: FINALIZE is PadTail. -/
theorem finalizeGivesTheDigestOfTheMessage : Obligations.FinalizeGivesTheDigestOfTheMessage := by
  intro m s habs
  have hH : (enterFinalized (padTail s)).H = sha256 m := padTail_sha256 habs
  refine ⟨_, exec_finalize_of_not_finalized habs.inv habs.1, rfl, padTail_byteCount s, hH, fun i => ?_⟩
  rw [readReg, if_pos (by simp), hH]

/-- Settles O55: HASH is Init, which has absorbed nothing, then Absorb and PadTail. -/
theorem hashGivesTheDigestOfItsChunk : Obligations.HashGivesTheDigestOfItsChunk := by
  intro s len hinv hl
  obtain ⟨a, ha, hexec⟩ := exec_hash_completes hinv hl
  have habs : a.Absorbing (chunk s.din len) := absorb_absorbing hl (init_absorbing s) ha
  have hcount := absorb_byteCount_toNat hl (by simp) ha
  have hdin := absorb_din hl (by simp) ha
  exact ⟨_, hexec, rfl, padTail_sha256 habs, by simpa using hcount, rfl, rfl, by simpa using hdin⟩

end Sys2Proof.Machine
end

section
/-! PROOFS, family other: the length of a padded message, its blocks, and the Words of its last block. -/

namespace Sys2Proof.Machine

/-! ## Lengths -/

/-- The length of the bit form of `pad` (41_preprocess.md R120). -/
theorem padBits_length (bits : List Bool) : (padBits bits).length = bits.length + 1 + padZeroBits bits.length + 64 := by
  simp only [padBits, List.length_append, List.length_singleton, List.length_replicate, List.length_ofFn]

/-- There are fewer than 512 zero bits (R120). -/
theorem padZeroBits_le (n : Nat) : padZeroBits n ≤ 511 := by
  unfold padZeroBits
  omega

/-- What `pad` adds fills one or two blocks with what the last block of the message holds (R121, R122). -/
theorem pad_length_eq (m : List Byte) : m.length % 64 + (pad m).length = m.length + 64 * tailBlocks (m.length % 64) := by
  rw [← padding_length, pad_eq, List.length_append]
  omega

/-- Settles O50: the padded bits are 448 + 64 modulo 512, and the padded bytes one or two blocks past the message's own. -/
theorem paddingLengthLaw : Obligations.PaddingLengthLaw := by
  refine ⟨fun bits => ?_, fun m => ?_, fun m h => ?_, fun m h => ?_⟩
  · have hmod := padZeroBits_mod bits.length
    have hle := padZeroBits_le bits.length
    rw [padBits_length]
    omega
  · have hlen := pad_length_eq m
    rw [tailBlocks_bytes] at hlen
    split at hlen <;> omega
  · have hlen := pad_length_eq m
    rw [tailBlocks_of_le h] at hlen
    omega
  · have hlen := pad_length_eq m
    rw [tailBlocks_of_gt h] at hlen
    omega

/-! ## The last block -/

/-- The last block of the padded message is the last of its tail (R122). -/
theorem getLast?_parseBlocks_pad {m : List Byte} {t : Nat} (ht : tailBlocks (m.length % 64) = t + 1) :
    (parseBlocks (pad m)).getLast? = some (blockAt (pad m) (m.length / 64 + t)) := by
  rw [parseBlocks_pad, ht, List.range_succ, List.map_append, ← List.append_assoc, List.map_singleton, List.getLast?_concat]

/-- Its last eight bytes are the length field (R121). -/
theorem blockAt_pad_length {m : List Byte} {t j : Nat} (ht : tailBlocks (m.length % 64) = t + 1) (hj : j < 8) :
    (blockAt (pad m) (m.length / 64 + t))[56 + j] = (be64 (BitVec.ofNat 64 (8 * m.length)))[j] := by
  have hsize := padZeroBytes_eq m.length
  have hpos : 64 * (m.length / 64 + t) + (56 + j) = m.length + 1 + padZeroBytes m.length + j := by omega
  rw [blockAt_getElem _ _ _ (by omega), hpos, pad_getD_length m hj]

/-- be32 of the first four bytes of be64 is its high half (00_scope.md R9). -/
theorem be32_be64_high (v : BitVec 64) : be32 (be64 v)[0] (be64 v)[1] (be64 v)[2] (be64 v)[3] = v.extractLsb' 32 32 := by
  simp only [be32, be64_getElem]
  rw [BitVec.extractLsb'_append_extractLsb'_eq_extractLsb' (by decide),
    BitVec.extractLsb'_append_extractLsb'_eq_extractLsb' (by decide),
    BitVec.extractLsb'_append_extractLsb'_eq_extractLsb' (by decide)]

/-- be32 of the last four is its low half (R9). -/
theorem be32_be64_low (v : BitVec 64) : be32 (be64 v)[4] (be64 v)[5] (be64 v)[6] (be64 v)[7] = v.extractLsb' 0 32 := by
  simp only [be32, be64_getElem]
  rw [BitVec.extractLsb'_append_extractLsb'_eq_extractLsb' (by decide),
    BitVec.extractLsb'_append_extractLsb'_eq_extractLsb' (by decide),
    BitVec.extractLsb'_append_extractLsb'_eq_extractLsb' (by decide)]

/-- Words 14 and 15 of a block that ends with be64 are its two halves (R124). -/
theorem parseWords_of_be64 {B : Block} {v : BitVec 64} (h : ∀ (j : Nat) (hj : j < 8), B[56 + j] = (be64 v)[j]) :
    (parseWords B)[14] = v.extractLsb' 32 32 ∧ (parseWords B)[15] = v.extractLsb' 0 32 := by
  rw [← be32_be64_high, ← be32_be64_low, parseWords_getElem, parseWords_getElem]
  simp only [← h, and_self]

/-- Settles O51: the blocks are the message's own and the tail, whose last eight bytes are the length field. -/
theorem paddedBlockCountAndTail : Obligations.PaddedBlockCountAndTail := by
  intro m
  have hcount : (parseBlocks (pad m)).length = m.length / 64 + tailBlocks (m.length % 64) := by
    rw [parseBlocks_pad, List.length_append, parseBlocks_length, List.length_map, List.length_range]
  have hfield (hm : 8 * m.length < 2 ^ 64) : (BitVec.ofNat 64 (8 * m.length)).toNat = 8 * m.length := by
    rw [BitVec.toNat_ofNat, Nat.mod_eq_of_lt hm]
  refine ⟨fun h => by rw [hcount, tailBlocks_of_le h], fun h => by rw [hcount, tailBlocks_of_gt h], ?own, fun hm => ?bytes,
    fun hm => ?words⟩
  case own => rw [parseBlocks_pad, List.take_left' (parseBlocks_length m)]
  case bytes =>
    refine ⟨padZeroBytes m.length, be64 (BitVec.ofNat 64 (8 * m.length)), ?_, rfl, fun j => ?_⟩
    · unfold padZeroBytes
      omega
    · rw [Fin.getElem_fin, be64_getElem_toNat, hfield hm]
  case words =>
    obtain ⟨t, ht⟩ : ∃ t, tailBlocks (m.length % 64) = t + 1 := by
      unfold tailBlocks
      split <;> exact ⟨_, rfl⟩
    obtain ⟨hhigh, hlow⟩ := parseWords_of_be64 fun j hj => blockAt_pad_length ht hj
    refine ⟨_, getLast?_parseBlocks_pad ht, ?_, ?_⟩
    · rw [hhigh, BitVec.extractLsb'_toNat, hfield hm, Nat.shiftRight_eq_div_pow]
      omega
    · rw [hlow, BitVec.extractLsb'_toNat, hfield hm, Nat.shiftRight_zero]

end Sys2Proof.Machine
end

section
/-! PROOFS, family other: commands run side by side from two states that agree on what a command reads, and what follows for dead
storage, for DIN past the chunk and for ERR. -/

namespace Sys2Proof.Machine

/-! ## Two outcomes that agree -/

/-- Outcomes that agree are both next, with related states, or the same stop. -/
theorem Result.agree_cases {R : State → State → Prop} {r r' : Result} (h : Result.Agree R r r') :
    (∃ a b, r = .next a ∧ r' = .next b ∧ R a b) ∨ (∃ f, r = .fault f ∧ r' = .fault f) ∨
      ∃ f, r = .refused f ∧ r' = .refused f := by
  match r, r', h with
  | .next a, .next b, h => exact .inl ⟨a, b, rfl, rfl, h⟩
  | .fault f, .fault _, rfl => exact .inr (.inl ⟨f, rfl, rfl⟩)
  | .refused f, .refused _, rfl => exact .inr (.inr ⟨f, rfl, rfl⟩)

theorem Result.eq_of_agree_eq {r r' : Result} (h : Result.Agree (fun s t => s = t) r r') : r = r' := by
  obtain ⟨a, _, rfl, rfl, rfl⟩ | ⟨f, rfl, rfl⟩ | ⟨f, rfl, rfl⟩ := agree_cases h <;> rfl

theorem Result.eq_andThen_of_agree {f : State → State} {r r' : Result} (h : Result.Agree (fun s t => t = f s) r r') :
    r' = andThen r fun s => .next (f s) := by
  obtain ⟨a, _, rfl, rfl, rfl⟩ | ⟨e, rfl, rfl⟩ | ⟨e, rfl, rfl⟩ := agree_cases h <;> rfl

/-- Absorb by the counter and the fill length (44_controller.md R172). -/
theorem absorb_eq {n : Nat} {s : State} (hn : n ≤ 64) (hb : s.bufLen ≤ 63) :
    absorb n s =
      if Config.maxMessageBytes < s.byteCount.toNat + n then .refused .messageTooLong
      else if s.bufLen + n < 64 then .next (appendChunk n s)
      else .next (drainBlock (appendChunk n s)) := by
  obtain ⟨hc, ha⟩ | ⟨hc, hl, ha⟩ | ⟨hc, hl, ha⟩ := absorb_cases n s hn hb
  · rw [ha, if_pos hc]
  · rw [ha, if_neg (not_lt.2 hc), if_pos hl]
  · rw [ha, if_neg (not_lt.2 hc), if_neg (not_lt.2 hl)]

section
variable {R R' : State → State → Prop} {s t : State}

theorem andThen_agree {r r' : Result} {k k' : State → Result} (h : Result.Agree R r r')
    (hk : ∀ a b, R a b → Result.Agree R' (k a) (k' b)) : Result.Agree R' (andThen r k) (andThen r' k') := by
  obtain ⟨a, b, rfl, rfl, hab⟩ | ⟨f, rfl, rfl⟩ | ⟨f, rfl, rfl⟩ := Result.agree_cases h
  · exact hk a b hab
  · rfl
  · rfl

/-- Commands that agree once the check at their start holds agree, where the check says the same of both states. -/
theorem atCommandStart_agree {f g : State → Result} (hok : commandStartOk s = commandStartOk t)
    (h : s.Inv → Result.Agree R (f s) (g t)) : Result.Agree R (atCommandStart s f) (atCommandStart t g) := by
  by_cases hs : s.Inv
  · have hs' := commandStartOk_of_inv hs
    rw [atCommandStart_ok hs', atCommandStart_ok (hok ▸ hs')]
    exact h hs
  · have hs' := (commandStartOk_false_iff s).2 hs
    rw [atCommandStart_fault hs', atCommandStart_fault (hok ▸ hs')]
    rfl

/-- Absorb decides by the counter and the fill length alone what it does (44_controller.md R172). -/
theorem absorb_agree {n : Nat} (hn : n ≤ 64) (hb : s.bufLen ≤ 63) (hlen : s.bufLen = t.bufLen)
    (hcount : s.byteCount = t.byteCount) (happend : R (appendChunk n s) (appendChunk n t))
    (hdrain : 64 ≤ s.bufLen + n → R (drainBlock (appendChunk n s)) (drainBlock (appendChunk n t))) :
    Result.Agree R (absorb n s) (absorb n t) := by
  rw [absorb_eq hn hb, absorb_eq hn (hlen ▸ hb), ← hcount, ← hlen]
  split
  · rfl
  split
  · exact happend
  · exact hdrain (by omega)

section
variable (hok : commandStartOk s = commandStartOk t)
include hok

/-- UPDATE from two states that it cannot tell apart (R173). -/
theorem exec_update_agree {len : Nat} (hfsm : s.fsm = t.fsm) (hraise : ∀ e, R' { s with err := e } { t with err := e })
    (habsorb : s.Inv → len ≤ 64 → Result.Agree R (absorb len s) (absorb len t))
    (hdone : ∀ a b, R a b → R' (finishOk { a with fsm := .updating }) (finishOk { b with fsm := .updating })) :
    Result.Agree R' (exec (.update len) s) (exec (.update len) t) := by
  rw [exec, exec, execUpdate, execUpdate]
  refine atCommandStart_agree hok fun hinv => ?_
  rw [← hfsm]
  cases hl : lenLegal len with
  | false => exact hraise _
  | true =>
    simp only [Bool.true_eq_false, if_false]
    split
    · exact hraise _
    · exact andThen_agree (habsorb hinv ((lenLegal_iff len).1 hl)) hdone

/-- HASH from two states that it cannot tell apart (R177). -/
theorem exec_hash_agree {len : Nat} (hraise : ∀ e, R' { s with err := e } { t with err := e })
    (habsorb : len ≤ 64 → Result.Agree R (absorb len (init s)) (absorb len (init t)))
    (hdone : ∀ a b, R a b → R' (enterFinalized (padTail a)) (enterFinalized (padTail b))) :
    Result.Agree R' (exec (.hash len) s) (exec (.hash len) t) := by
  rw [exec, exec, execHash, execHash]
  refine atCommandStart_agree hok fun _ => ?_
  cases hl : lenLegal len with
  | false => exact hraise _
  | true => exact andThen_agree (habsorb ((lenLegal_iff len).1 hl)) hdone

/-- FINALIZE from two states that it cannot tell apart (R174). -/
theorem exec_finalize_agree (hfsm : s.fsm = t.fsm) (hkeep : R' (finishOk s) (finishOk t))
    (hdone : R' (enterFinalized (padTail s)) (enterFinalized (padTail t))) :
    Result.Agree R' (exec .finalize s) (exec .finalize t) := by
  rw [exec, exec, execFinalize, execFinalize]
  refine atCommandStart_agree hok fun _ => ?_
  rw [← hfsm]
  split
  · exact hkeep
  · exact hdone

end

end

end Sys2Proof.Machine
end

section
/-! PROOFS, family other: dead storage never shows, DIN past the chunk is not read, and ERR is no input of any command. -/

namespace Sys2Proof.Machine

/-! ## Dead storage (10_state.md R43) -/

section
variable {s t : State} (h : s.SameLive t)
include h

/-- States that agree on live storage differ in the contents of dead storage only. -/
theorem State.SameLive.exists_eq_with : ∃ b W v, t = { s with buf := b, W := W, wr := v } ∧
    ∀ (k : Nat) (hk : k < 128), k < s.bufLen → s.buf[k] = b[k] := by
  obtain ⟨hH, hlen, hbuf, hcount, hfsm, herr, hdin, hpending, hreads, hpowerOns⟩ := h
  refine ⟨t.buf, t.W, t.wr, ?_, hbuf⟩
  rw [hH, hlen, hcount, hfsm, herr, hdin, hpending, hreads, hpowerOns]

/-- No register reads dead storage. -/
theorem State.SameLive.readReg_eq (r : Reg) : readReg r s = readReg r t := by
  obtain ⟨b, W, v, rfl, -⟩ := h.exists_eq_with
  cases r <;> rfl

theorem State.SameLive.commandStartOk_eq : commandStartOk s = commandStartOk t := by
  obtain ⟨b, W, v, rfl, -⟩ := h.exists_eq_with
  rfl

/-- The appended chunk is live, and what was live stays so. -/
theorem State.SameLive.appendChunk {n : Nat} (hn : n ≤ 64) : (appendChunk n s).SameLive (appendChunk n t) := by
  obtain ⟨b, W, v, rfl, hb⟩ := h.exists_eq_with
  refine ⟨rfl, rfl, fun k hk hlt => ?_, rfl, rfl, rfl, rfl, rfl, rfl, rfl⟩
  simp only [appendChunk_buf, appendChunk_bufLen, appendedBuffer_getElem] at hlt ⊢
  by_cases hnew : s.bufLen ≤ k
  · rw [dif_pos (by omega), dif_pos (by omega)]
  · rw [dif_neg (by omega), dif_neg (by omega), hb k hk (by omega)]

/-- A block that is removed was live, and the bytes behind it stay so. -/
theorem State.SameLive.drainBlock (hge : 64 ≤ s.bufLen) : (drainBlock s).SameLive (drainBlock t) := by
  obtain ⟨hH, hlen, hbuf, hcount, hfsm, herr, hdin, hpending, hreads, hpowerOns⟩ := h
  have hblock : bufBlock s.buf 0 = bufBlock t.buf 0 := by
    apply Vector.ext
    intro j hj
    rw [bufBlock_getElem _ _ _ hj, bufBlock_getElem _ _ _ hj, hbuf _ (by omega) (by simp only [Fin.val_zero]; omega)]
  refine ⟨?H, ?bufLen, ?buf, hcount, hfsm, herr, hdin, hpending, hreads, hpowerOns⟩
  case H => rw [drainBlock_H, drainBlock_H, hH, hblock]
  case bufLen => rw [drainBlock_bufLen, drainBlock_bufLen, hlen]
  case buf =>
    intro k hk hlt
    simp only [drainBlock_buf, drainBlock_bufLen, shiftedBuffer_getElem] at hlt ⊢
    by_cases hfront : k < 64
    · rw [dif_pos hfront, dif_pos hfront, hbuf _ (by omega) (by omega)]
    · rw [dif_neg hfront, dif_neg hfront, hbuf _ (by omega) (by omega)]

/-- PadTail writes every byte of the tail that was dead. -/
theorem State.SameLive.paddedBuffer_eq {k : Nat} (hk : k < 128) (htail : k < 64 * tailBlocks s.bufLen) :
    (paddedBuffer s)[k] = (paddedBuffer t)[k] := by
  obtain ⟨b, W, v, rfl, hb⟩ := h.exists_eq_with
  simp only [paddedBuffer_getElem]
  by_cases hlive : k < s.bufLen
  · rw [if_pos hlive, if_pos hlive, hb k hk hlive]
  · have hfield : k < 64 * tailBlocks s.bufLen ∧ k - (64 * tailBlocks s.bufLen - 8) < 8 := by omega
    rw [if_neg hlive, if_neg hlive, dif_pos hfield, dif_pos hfield]

/-- The engine that PadTail leaves FINALIZED has no live Buffer byte, and a HashState from live ones. -/
theorem State.SameLive.enterFinalized_padTail : (enterFinalized (padTail s)).SameLive (enterFinalized (padTail t)) := by
  have hblock (q : Fin 2) (hq : 64 * q.val + 64 ≤ 64 * tailBlocks s.bufLen) :
      bufBlock (paddedBuffer s) q = bufBlock (paddedBuffer t) q := by
    apply Vector.ext
    intro j hj
    rw [bufBlock_getElem _ _ _ hj, bufBlock_getElem _ _ _ hj, h.paddedBuffer_eq (by omega) (by omega)]
  have hH : (padTail s).H = (padTail t).H := by
    have ⟨hH, hlen, _⟩ := h
    by_cases hle : s.bufLen ≤ 55
    · rw [padTail_H_of_le hle, padTail_H_of_le (hlen ▸ hle), hH, hblock 0 (by simp [tailBlocks_of_le hle])]
    · have hge : 56 ≤ s.bufLen := by omega
      rw [padTail_H_of_ge hge, padTail_H_of_ge (hlen ▸ hge), hH, hblock 0 (by simp [tailBlocks_of_gt hge]),
        hblock 1 (by simp [tailBlocks_of_gt hge])]
  obtain ⟨-, -, -, hcount, -, -, hdin, hpending, hreads, hpowerOns⟩ := h
  refine ⟨hH, ?_, fun k _ hk => absurd hk (Nat.not_lt_zero k), ?_, ?_, ?_, ?_, ?_, ?_, ?_⟩
  all_goals simp [hcount, hdin, hpending, hreads, hpowerOns]

/-- After Init no Buffer byte is live. -/
theorem State.SameLive.init : (init s).SameLive (init t) := by
  obtain ⟨b, W, v, rfl, -⟩ := h.exists_eq_with
  exact ⟨rfl, rfl, fun k _ hk => absurd hk (Nat.not_lt_zero k), rfl, rfl, rfl, rfl, rfl, rfl, rfl⟩

/-- A change of what is not storage, the same in both states, keeps the agreement. -/
theorem State.SameLive.with_control (f : Fsm) (e : Err) (d : Vector Word 16) (es : List HostEvent) (rs : List Word) :
    { s with fsm := f, err := e, din := d, pending := es, reads := rs }.SameLive
      { t with fsm := f, err := e, din := d, pending := es, reads := rs } := by
  obtain ⟨b, W, v, rfl, hb⟩ := h.exists_eq_with
  exact ⟨rfl, rfl, hb, rfl, rfl, rfl, rfl, rfl, rfl, rfl⟩

/-- Setting ERR keeps the agreement. -/
theorem State.SameLive.with_err (e : Err) : { s with err := e }.SameLive { t with err := e } := by
  obtain ⟨b, W, v, rfl, -⟩ := h.exists_eq_with
  exact h.with_control s.fsm e s.din s.pending s.reads

theorem State.SameLive.absorb_agree {n : Nat} (hn : n ≤ 64) (hb : s.bufLen ≤ 63) :
    Result.Agree State.SameLive (absorb n s) (absorb n t) := by
  have ⟨_, hlen, _, hcount, _⟩ := h
  have happend := h.appendChunk hn
  exact Machine.absorb_agree hn hb hlen hcount happend fun hge => happend.drainBlock (by simpa using hge)

/-- A command does the same to live storage, whatever dead storage holds. -/
theorem State.SameLive.exec_agree (i : Instr) : Result.Agree State.SameLive (exec i s) (exec i t) := by
  have hok := h.commandStartOk_eq
  have hfsm : s.fsm = t.fsm := by obtain ⟨-, -, -, -, hfsm, -⟩ := h; exact hfsm
  cases i with
  | update len =>
    refine exec_update_agree hok hfsm h.with_err (fun hinv hl => h.absorb_agree hl hinv.1) fun a b hab => ?_
    obtain ⟨_, _, _, rfl, -⟩ := hab.exists_eq_with
    exact hab.with_control .updating .ok a.din a.pending a.reads
  | finalize => exact exec_finalize_agree hok hfsm (h.with_err .ok) h.enterFinalized_padTail
  | reset =>
    rw [exec, exec, execReset, execReset]
    exact atCommandStart_agree hok fun _ => h.init.with_err .ok
  | wipe =>
    rw [exec, exec, execWipe, execWipe]
    refine atCommandStart_agree hok fun _ => State.SameLive.with_err ?_ .ok
    obtain ⟨b, W, v, rfl, -⟩ := h.exists_eq_with
    exact ⟨rfl, rfl, fun k _ hk => absurd hk (Nat.not_lt_zero k), rfl, rfl, rfl, rfl, rfl, rfl, rfl⟩
  | hash len =>
    exact exec_hash_agree hok h.with_err (fun hl => h.init.absorb_agree hl (by simp)) fun a b hab => hab.enterFinalized_padTail

theorem State.SameLive.rejectCommand_agree : Result.Agree State.SameLive (rejectCommand s) (rejectCommand t) :=
  atCommandStart_agree h.commandStartOk_eq fun _ => h.with_err .illegalCmd

/-- A write of a register does the same to live storage. -/
theorem State.SameLive.writeReg_agree (r : Reg) (x : Word) : Result.Agree State.SameLive (writeReg r x s) (writeReg r x t) := by
  cases r with
  | cmd =>
    rw [writeReg, writeReg, runCommand, runCommand]
    cases decode x with
    | ok i => exact h.exec_agree i
    | error e => exact h.rejectCommand_agree
  | din j =>
    obtain ⟨b, W, v, rfl, -⟩ := h.exists_eq_with
    exact h.with_control s.fsm s.err (s.din.set j x) s.pending s.reads
  | status => exact h
  | byteCountLo => exact h
  | byteCountHi => exact h
  | reserved i => exact h
  | digest i => exact h

/-- An event does the same to live storage. -/
theorem State.SameLive.perform_agree (e : HostEvent) : Result.Agree State.SameLive (perform e s) (perform e t) := by
  cases e with
  | memRead off width =>
    rw [perform, perform]
    cases accessTarget off width with
    | ok r =>
      simp only [← h.readReg_eq r]
      obtain ⟨b, W, v, rfl, -⟩ := h.exists_eq_with
      exact h.with_control s.fsm s.err s.din s.pending _
    | error why => rfl
  | memWrite off width x =>
    rw [perform, perform]
    cases accessTarget off width with
    | ok r => exact h.writeReg_agree r x
    | error why => rfl
  | powerOnReset =>
    obtain ⟨b, W, v, rfl, -⟩ := h.exists_eq_with
    exact ⟨rfl, rfl, fun k _ hk => absurd hk (Nat.not_lt_zero k), rfl, rfl, rfl, rfl, rfl, rfl, rfl⟩

end

/-- Settles O38: a step performs the same event in both states, and a register reads the same. -/
theorem deadStorageIsUnobservable : Obligations.DeadStorageIsUnobservable := by
  intro s t h
  constructor
  case right =>
    obtain ⟨b, W, v, rfl, -⟩ := h.exists_eq_with
    simp only [State.observe, h.readReg_eq]
  case left =>
    cases hp : s.pending with
    | nil =>
      obtain ⟨b, W, v, rfl, -⟩ := h.exists_eq_with
      rw [step_of_nil hp, step_of_nil (s := { s with buf := b, W := W, wr := v }) hp]
      exact h
    | cons e rest =>
      obtain ⟨b, W, v, rfl, -⟩ := h.exists_eq_with
      rw [step_of_cons hp, step_of_cons (s := { s with buf := b, W := W, wr := v }) hp]
      exact (h.with_control s.fsm s.err s.din rest s.reads).perform_agree e

end Sys2Proof.Machine
end

section
/-! PROOFS, family other: DIN past the chunk is not read, ERR is no input of any command, and what each command leaves in ERR. -/

namespace Sys2Proof.Machine

/-! ## What Absorb and PadTail do not read -/

/-- The state with the controller state, ERR and DIN each changed by a function. -/
def State.mapControl (f : Fsm → Fsm) (e : Err → Err) (d : Vector Word 16 → Vector Word 16) (s : State) : State :=
  { s with fsm := f s.fsm, err := e s.err, din := d s.din }

section
variable (f : Fsm → Fsm) (e : Err → Err) (d : Vector Word 16 → Vector Word 16) (s : State)

/-- Init overwrites the controller state, and leaves ERR and DIN (44_controller.md R171). -/
theorem init_mapControl : init (s.mapControl id e d) = (init s).mapControl id e d := rfl

/-- Compressing a block reads none of the three (43_compression.md R153). -/
theorem compressBytes_mapControl (B : Block) : compressBytes B (s.mapControl f e d) = (compressBytes B s).mapControl f e d := by
  simp only [compressBytes, State.mapControl]

/-- Nor does removing a block from the Buffer (44_controller.md R172). -/
theorem drainBlock_mapControl : drainBlock (s.mapControl f e d) = (drainBlock s).mapControl f e d := by
  simp only [drainBlock, compressBytes, State.mapControl]

/-- Nor does PadTail (41_preprocess.md R127). -/
theorem padTail_mapControl : padTail (s.mapControl f e d) = (padTail s).mapControl f e d := by
  have hpadded : { s.mapControl f e d with buf := paddedBuffer (s.mapControl f e d) } =
      { s with buf := paddedBuffer s }.mapControl f e d := rfl
  have hbuf : paddedBuffer (s.mapControl f e d) = paddedBuffer s := rfl
  by_cases hle : s.bufLen ≤ 55
  · rw [padTail_of_le hle, padTail_of_le (s := s.mapControl f e d) hle, hpadded, hbuf, compressBytes_mapControl]
  · have hge : 56 ≤ s.bufLen := by omega
    rw [padTail_of_ge hge, padTail_of_ge (s := s.mapControl f e d) hge, hpadded, hbuf, compressBytes_mapControl,
      compressBytes_mapControl]

/-- The last lines of FINALIZE and HASH overwrite the controller state and ERR, and leave DIN (44_controller.md R174). -/
theorem enterFinalized_padTail_mapControl :
    enterFinalized (padTail (s.mapControl f e d)) = (enterFinalized (padTail s)).mapControl id id d := by
  rw [padTail_mapControl]
  rfl

end

/-- Appending reads of DIN the chunk alone (R172). -/
theorem appendChunk_mapControl {s : State} {f : Fsm → Fsm} {e : Err → Err} {d : Vector Word 16 → Vector Word 16} {n : Nat}
    (hd : ∀ j : Fin 64, j.val < n → dinByte (d s.din) j = dinByte s.din j) :
    appendChunk n (s.mapControl f e d) = (appendChunk n s).mapControl f e d := by
  have hbuf : appendedBuffer n (s.mapControl f e d) = appendedBuffer n s := by
    apply Vector.ext
    intro k hk
    rw [appendedBuffer_getElem, appendedBuffer_getElem]
    by_cases hnew : s.bufLen ≤ k ∧ k < s.bufLen + n ∧ k - s.bufLen < 64
    · rw [dif_pos hnew]
      exact (dif_pos hnew).trans (hd ⟨k - s.bufLen, hnew.2.2⟩ (by simp only; omega))
    · rw [dif_neg hnew]
      exact dif_neg hnew
  simp only [appendChunk, hbuf]
  rfl

/-- Absorb reads of DIN the chunk alone, and neither ERR nor the controller state (R172). -/
theorem absorb_agree_mapControl {s : State} {f : Fsm → Fsm} {e : Err → Err} {d : Vector Word 16 → Vector Word 16} {n : Nat}
    (hn : n ≤ 64) (hb : s.bufLen ≤ 63) (hd : ∀ j : Fin 64, j.val < n → dinByte (d s.din) j = dinByte s.din j) :
    Result.Agree (fun a b => b = a.mapControl f e d) (absorb n s) (absorb n (s.mapControl f e d)) := by
  have happend := appendChunk_mapControl (f := f) (e := e) hd
  refine absorb_agree (s := s) (t := s.mapControl f e d) hn hb rfl rfl happend fun _ => ?_
  rw [happend, drainBlock_mapControl]

/-! ## DIN past the chunk (70_reset_and_hazards.md R234) -/

/-- Settles O23: both commands read DIN in Absorb only, and there only the chunk. -/
theorem dinBytesBeyondLenAreIgnored : Obligations.DinBytesBeyondLenAreIgnored := by
  intro s d len _ hd i hi
  apply Result.eq_andThen_of_agree (f := State.mapControl id id fun _ => d)
  obtain rfl | rfl := hi
  · refine exec_update_agree (s := s) (t := s.mapControl id id fun _ => d) rfl rfl (fun _ => rfl)
      (fun hinv hl => absorb_agree_mapControl hl hinv.1 hd) ?_
    rintro a _ rfl
    rfl
  · refine exec_hash_agree (s := s) (t := s.mapControl id id fun _ => d) (R := fun a b => b = a.mapControl id id fun _ => d) rfl
      (fun _ => rfl) (fun hl => ?_) ?_
    · rw [init_mapControl]
      exact absorb_agree_mapControl hl (by simp) hd
    rintro a _ rfl
    exact enterFinalized_padTail_mapControl id id _ a

/-! ## ERR (60_exceptions.md R202) -/

/-- No command reads ERR. -/
theorem exec_with_err (i : Instr) (s : State) (e : Err) : exec i { s with err := e } = exec i s := by
  refine (Result.eq_of_agree_eq ?_).symm
  cases i with
  | update len =>
    refine exec_update_agree (s := s) (t := s.mapControl id (fun _ => e) id) rfl rfl (fun _ => rfl)
      (fun hinv hl => absorb_agree_mapControl hl hinv.1 fun _ _ => rfl) ?_
    rintro a _ rfl
    rfl
  | finalize =>
    exact exec_finalize_agree (s := s) (t := s.mapControl id (fun _ => e) id) rfl rfl rfl
      (enterFinalized_padTail_mapControl id (fun _ => e) id s).symm
  | reset =>
    rw [exec, exec, execReset, execReset]
    exact atCommandStart_agree rfl fun _ => rfl
  | wipe =>
    rw [exec, exec, execWipe, execWipe]
    exact atCommandStart_agree rfl fun _ => rfl
  | hash len =>
    refine exec_hash_agree (s := s) (t := s.mapControl id (fun _ => e) id) (R := fun a b => b = a.mapControl id (fun _ => e) id)
      rfl (fun _ => rfl) (fun hl => ?_) ?_
    · rw [init_mapControl]
      exact absorb_agree_mapControl hl (by simp) fun _ _ => rfl
    rintro a _ rfl
    exact (enterFinalized_padTail_mapControl id (fun _ => e) id a).symm

/-- A rejected word is rejected alike, whatever ERR held. -/
theorem rejectCommand_with_err (s : State) (e : Err) : rejectCommand { s with err := e } = rejectCommand s := by
  refine (Result.eq_of_agree_eq ?_).symm
  exact atCommandStart_agree rfl fun _ => rfl

/-- A write of another register than CMD is ignored or stored to DIN (10_state.md R35, R40, R66). -/
theorem writeReg_of_ne_cmd {r : Reg} (hr : r ≠ .cmd) (v : Word) (s : State) :
    ∃ d, writeReg r v s = .next { s with din := d } := by
  cases r with
  | cmd => exact absurd rfl hr
  | din j => exact ⟨_, rfl⟩
  | status => exact ⟨s.din, rfl⟩
  | byteCountLo => exact ⟨s.din, rfl⟩
  | byteCountHi => exact ⟨s.din, rfl⟩
  | reserved i => exact ⟨s.din, rfl⟩
  | digest i => exact ⟨s.din, rfl⟩

/-- An event that neither writes CMD nor resets the engine changes at most DIN and what the host has read (R66). -/
theorem perform_next_of_not_command {e : HostEvent} {s t : State} (hcmd : ∀ c, e ≠ .memWrite 0x000 4 c)
    (hreset : e ≠ .powerOnReset) (h : perform e s = .next t) : ∃ d rs, t = { s with din := d, reads := rs } := by
  cases e with
  | memRead off width =>
    rw [perform] at h
    split at h <;> cases h
    exact ⟨_, _, rfl⟩
  | memWrite off width v =>
    obtain ⟨-, ht⟩ | ⟨-, -, ht⟩ | ⟨-, -, -, ht⟩ | ⟨rfl, r, rfl, ht⟩ := accessTarget_cases off width <;>
      simp only [perform, ht] at h
    case inr.inr.inr =>
      have hr : r ≠ .cmd := fun hr => hcmd v (by rw [hr]; rfl)
      obtain ⟨d, hw⟩ := writeReg_of_ne_cmd hr v s
      rw [hw] at h
      cases h
      exact ⟨d, s.reads, rfl⟩
    all_goals cases h
  | powerOnReset => exact absurd rfl hreset

/-- What UPDATE leaves in ERR (44_controller.md R173). -/
theorem exec_update_err {len : Nat} {s t : State} (h : exec (.update len) s = .next t) :
    t.err = if 64 < len then .badLen else if s.fsm = .finalized then .invalidState else .ok := by
  obtain ⟨-, ⟨hl, rfl⟩ | ⟨hl, hf, rfl⟩ | ⟨hl, hf, a, -, rfl⟩⟩ := execUpdate_next h
  · rw [if_pos hl]
  · rw [if_neg (not_lt.2 hl), if_pos hf]
  · rw [if_neg (not_lt.2 hl), if_neg hf, finishOk_err]

/-- What HASH leaves in ERR (R177). -/
theorem exec_hash_err {len : Nat} {s t : State} (h : exec (.hash len) s = .next t) :
    t.err = if 64 < len then .badLen else .ok := by
  obtain ⟨-, ⟨hl, rfl⟩ | ⟨hl, a, -, rfl⟩⟩ := execHash_next h
  · rw [if_pos hl]
  · rw [if_neg (not_lt.2 hl), enterFinalized_err]

/-- FINALIZE, RESET and WIPE leave OK (R174 to R176). -/
theorem exec_noOperand_err {i : Instr} {s t : State} (hi : i = .finalize ∨ i = .reset ∨ i = .wipe) (h : exec i s = .next t) :
    t.err = .ok := by
  obtain rfl | rfl | rfl := hi
  · obtain ⟨-, ⟨-, rfl⟩ | ⟨-, rfl⟩⟩ := execFinalize_next h <;> simp
  · obtain ⟨-, rfl⟩ := execReset_next h
    simp
  · obtain ⟨-, rfl⟩ := execWipe_next h
    simp

/-- A command that leaves another ERR than OK changed nothing else (R201). -/
theorem exec_ok_or_raised {i : Instr} {s t : State} (h : exec i s = .next t) :
    t.err = .ok ∨ (t.err = .badLen ∧ t = { s with err := .badLen }) ∨
      (t.err = .invalidState ∧ t = { s with err := .invalidState }) := by
  cases i with
  | update len =>
    obtain ⟨-, ⟨-, rfl⟩ | ⟨-, -, rfl⟩ | ⟨-, -, a, -, rfl⟩⟩ := execUpdate_next h
    · exact .inr (.inl ⟨rfl, rfl⟩)
    · exact .inr (.inr ⟨rfl, rfl⟩)
    · exact .inl rfl
  | finalize => exact .inl (exec_noOperand_err (.inl rfl) h)
  | reset => exact .inl (exec_noOperand_err (.inr (.inl rfl)) h)
  | wipe => exact .inl (exec_noOperand_err (.inr (.inr rfl)) h)
  | hash len =>
    obtain ⟨-, ⟨-, rfl⟩ | ⟨-, a, -, rfl⟩⟩ := execHash_next h
    · exact .inr (.inl ⟨rfl, rfl⟩)
    · exact .inl rfl

/-- Settles O12: ERR is no input of a command or a rejected word, each writes it, and of other events the power-on reset alone. -/
theorem everyCommandOverwritesErr : Obligations.EveryCommandOverwritesErr := by
  refine ⟨exec_with_err, fun c e s a hd => ?rejected, fun s t e rest hp h => ?otherEvents, fun i s t => exec_ok_or_raised,
    fun i s t => exec_noOperand_err, fun len s t _ => exec_update_err, fun len s t _ => exec_hash_err,
    fun c e s t hd h => ?illegal⟩
  case rejected => rw [perform_illegalWrite _ hd, perform_illegalWrite _ hd, rejectCommand_with_err]
  case illegal =>
    rw [perform_illegalWrite s hd] at h
    obtain ⟨-, rfl⟩ := rejectCommand_next h
    rfl
  case otherEvents =>
    rw [step_of_cons hp] at h
    have frame (hcmd : ∀ c, e ≠ .memWrite 0x000 4 c) (hreset : e ≠ .powerOnReset) : t.err = s.err := by
      obtain ⟨d, rs, rfl⟩ := perform_next_of_not_command hcmd hreset h
      rfl
    refine ⟨?_, ?_, ?_⟩
    · rintro off width rfl
      exact frame (fun c => by simp) (by simp)
    · rintro off width v rfl hoff
      exact frame (fun c => by simp [hoff]) (by simp)
    · rintro rfl
      cases h
      rfl

end Sys2Proof.Machine
end

section
/-! PROOFS, family other: what the controller does with HASH, with a FINALIZED engine and with a full chunk, and what each step
leaves in HashState. -/

namespace Sys2Proof.Machine

/-! ## HASH as RESET, UPDATE, FINALIZE (44_controller.md R177) -/

/-- UPDATE of a fresh engine, whatever ERR it holds, is Absorb into it. -/
theorem exec_update_init {s a : State} {len : Nat} (hl : len ≤ 64) (ha : absorb len (init s) = .next a) :
    exec (.update len) (finishOk (init s)) = .next (finishOk { a with fsm := .updating }) :=
  (exec_with_err (.update len) (init s) .ok).trans (exec_update_of_absorb (init_inv s) hl (by simp) ha)

/-- FINALIZE of an UPDATING engine ends as PadTail and the last lines end. -/
theorem exec_finalize_updating {a : State} (hinv : (finishOk { a with fsm := .updating }).Inv) :
    exec .finalize (finishOk { a with fsm := .updating }) = .next (enterFinalized (padTail a)) := by
  rw [exec_finalize_of_not_finalized hinv (by simp)]
  exact congrArg _ (enterFinalized_padTail_mapControl (fun _ => .updating) (fun _ => .ok) id a)

/-- Settles O19: HASH is Init, Absorb, PadTail and the last lines; so are the three, but for ERR and STATE in between. -/
theorem hashIsResetUpdateFinalize : Obligations.HashIsResetUpdateFinalize := by
  intro s len hinv hl
  obtain ⟨a, ha, hhash⟩ := exec_hash_completes hinv hl
  have hupdate := exec_update_init hl ha
  have hb0 : (init s).bufLen ≤ 63 := by simp
  have hdin := absorb_din hl hb0 ha
  obtain ⟨hpending, hreads, hpowerOns⟩ := absorb_host hl hb0 ha
  have hcount : a.byteCount = BitVec.ofNat 64 len := by
    apply BitVec.eq_of_toNat_eq
    rw [absorb_byteCount_toNat hl hb0 ha, init_byteCount, BitVec.toNat_ofNat, Nat.mod_eq_of_lt (by omega)]
    exact Nat.zero_add len
  refine ⟨_, _, _, execReset_eq (commandStartOk_of_inv hinv), hupdate, exec_finalize_updating (exec_inv hupdate), hhash, ?_⟩
  simp [hcount, hdin, hpending, hreads, hpowerOns]

/-! ## The controller state (44_controller.md R178, R181) -/

/-- Settles O20: each command's effect on the controller state; ERR alone changes where it raises an error. -/
theorem controllerTransitions : Obligations.ControllerTransitions := by
  intro s len hinv
  have hok := commandStartOk_of_inv hinv
  refine ⟨fun hl hf hc => ?update, fun hl hf => ⟨_, exec_update_invalidState hinv hl hf, hf, rfl⟩, ?finalize,
    ⟨_, execReset_eq hok, rfl⟩, ⟨_, execWipe_eq hok, rfl⟩, fun hl => ?hash,
    fun hl _ => ⟨⟨_, exec_update_badLen hinv hl, rfl⟩, _, exec_hash_badLen hinv hl, rfl⟩,
    fun c e hd => ⟨_, (perform_illegalWrite s hd).trans (rejectCommand_eq hok), rfl⟩, fun i t hf h hleft => ?left⟩
  case update =>
    obtain ⟨a, ha⟩ := absorb_of_le hl hinv.1 hc
    exact ⟨_, exec_update_of_absorb hinv hl hf ha, rfl, rfl⟩
  case finalize =>
    by_cases hf : s.fsm = .finalized
    · exact ⟨_, exec_finalize_of_finalized hinv hf, hf⟩
    · exact ⟨_, exec_finalize_of_not_finalized hinv hf, rfl⟩
  case hash =>
    obtain ⟨a, -, hexec⟩ := exec_hash_completes hinv hl
    exact ⟨_, hexec, rfl⟩
  case left =>
    by_contra hi
    obtain ⟨hreset, hwipe⟩ := not_or.1 hi
    by_cases hhash : ∀ len ≤ 64, i ≠ .hash len
    · obtain ⟨e, rfl⟩ := exec_finalized_next hf hreset hwipe hhash h
      exact hleft hf
    · push Not at hhash
      obtain ⟨n, hn, rfl⟩ := hhash
      obtain ⟨a, -, hexec⟩ := exec_hash_completes hinv hn
      rw [hexec] at h
      cases h
      exact hleft rfl

/-- No register but STATUS reads ERR (10_state.md R37). -/
theorem readReg_with_err {r : Reg} (hr : r ≠ .status) (s : State) (e : Err) : readReg r { s with err := e } = readReg r s := by
  cases r with
  | status => exact absurd rfl hr
  | cmd => rfl
  | byteCountLo => rfl
  | byteCountHi => rfl
  | reserved i => rfl
  | digest i => rfl
  | din j => rfl

/-- Settles O15: of a FINALIZED engine both commands change ERR alone. -/
theorem finalizedEngineKeepsItsDigest : Obligations.FinalizedEngineKeepsItsDigest := by
  intro s len hinv hf hl i hi
  obtain rfl | rfl := hi
  · exact ⟨_, exec_finalize_of_finalized hinv hf, rfl, fun r hr => readReg_with_err hr s .ok⟩
  · exact ⟨_, exec_update_invalidState hinv hl hf, rfl, fun r hr => readReg_with_err hr s .invalidState⟩

/-! ## A full chunk (20_memory.md R61) -/

/-- The bytes of DIN parse back to its Words (R33, R61). -/
theorem parseWords_dinBytes (d : Vector Word 16) : parseWords (Vector.ofFn fun j => dinByte d j) = d := by
  apply Vector.ext
  intro i hi
  have hdiv : 4 * i / 4 = i ∧ (4 * i + 1) / 4 = i ∧ (4 * i + 2) / 4 = i ∧ (4 * i + 3) / 4 = i := by omega
  have hmod : 4 * i % 4 = 0 ∧ (4 * i + 1) % 4 = 1 ∧ (4 * i + 2) % 4 = 2 ∧ (4 * i + 3) % 4 = 3 := by omega
  rw [parseWords_getElem]
  simp only [Vector.getElem_ofFn, dinByte, hdiv, hmod]
  exact be32_wordByte d[i]

/-- A full chunk in an empty Buffer is the block (R172). -/
theorem bufBlock_appendedBuffer_full {s : State} (hb : s.bufLen = 0) :
    bufBlock (appendedBuffer 64 s) 0 = Vector.ofFn fun j => dinByte s.din j := by
  apply Vector.ext
  intro j hj
  have hchunk := appendedBuffer_chunk s (n := 64) ⟨j, hj⟩ (by simp only; omega) hj
  simp only [hb, Nat.zero_add] at hchunk
  rw [bufBlock_getElem _ _ _ hj, Vector.getElem_ofFn, ← hchunk]
  simp

/-- Settles O17: the block that UPDATE compresses is DIN's bytes. -/
theorem fullChunkIntoEmptyBufferIsTheBlock : Obligations.FullChunkIntoEmptyBufferIsTheBlock := by
  refine ⟨parseWords_dinBytes, fun s hinv hb hf hc => ?_⟩
  obtain ⟨a, ha⟩ := absorb_of_le le_rfl hinv.1 hc
  have hexec := exec_update_of_absorb hinv le_rfl hf ha
  have hblock : parseWords (bufBlock (appendedBuffer 64 s) 0) = s.din := by
    rw [bufBlock_appendedBuffer_full hb, parseWords_dinBytes]
  obtain ⟨-, ⟨hlt, -⟩ | ⟨-, rfl⟩⟩ := absorb_next le_rfl hinv.1 ha
  · omega
  · refine ⟨_, hexec, ?_⟩
    simp [hb, hblock, compressBlock]

/-! ## HashState (10_state.md R23) -/

/-- What UPDATE leaves in HashState: a block is folded in where one fills up (44_controller.md R172, R173). -/
theorem exec_update_H {len : Nat} {s t : State} (h : exec (.update len) s = .next t) :
    (64 < len ∨ s.fsm = .finalized ∨ s.bufLen + len < 64 → t.H = s.H) ∧
      (len ≤ 64 → s.fsm ≠ .finalized → 64 ≤ s.bufLen + len →
        t.H = hashBlocks s.H [bufBlock (appendedBuffer len s) 0]) := by
  obtain ⟨hok, ⟨hl, rfl⟩ | ⟨hl, hf, rfl⟩ | ⟨hl, hf, a, ha, rfl⟩⟩ := execUpdate_next h
  · exact ⟨fun _ => rfl, fun hl' => absurd hl' (not_le.2 hl)⟩
  · exact ⟨fun _ => rfl, fun _ hf' => absurd hf hf'⟩
  · obtain ⟨-, ⟨hlt, rfl⟩ | ⟨hge, rfl⟩⟩ := absorb_next hl (bufLen_le_of_commandStartOk hok) ha
    · exact ⟨fun _ => by simp, fun _ _ hge => absurd hge (not_le.2 hlt)⟩
    · refine ⟨fun hkeep => ?_, fun _ _ _ => by simp⟩
      obtain hl' | hf' | hlt := hkeep
      · omega
      · exact absurd hf' hf
      · omega

/-- What FINALIZE leaves in HashState: the tail blocks are folded in, unless FINALIZED already (R174). -/
theorem exec_finalize_H {s t : State} (h : exec .finalize s = .next t) :
    (s.fsm = .finalized → t.H = s.H) ∧
      (s.fsm ≠ .finalized → s.bufLen ≤ 55 → t.H = hashBlocks s.H [bufBlock (paddedBuffer s) 0]) ∧
      (s.fsm ≠ .finalized → 56 ≤ s.bufLen →
        t.H = hashBlocks s.H [bufBlock (paddedBuffer s) 0, bufBlock (paddedBuffer s) 1]) := by
  obtain ⟨-, ⟨hf, rfl⟩ | ⟨hf, rfl⟩⟩ := execFinalize_next h
  · exact ⟨fun _ => rfl, fun hf' => absurd hf hf', fun hf' => absurd hf hf'⟩
  · exact ⟨fun hf' => absurd hf' hf, fun _ hle => padTail_H_of_le hle, fun _ hge => padTail_H_of_ge hge⟩

/-- What HASH leaves in HashState: the blocks of its chunk and its padding are folded into IV (R177). -/
theorem exec_hash_H {len : Nat} {s t : State} (h : exec (.hash len) s = .next t) :
    let a := appendChunk len (init s)
    (64 < len → t.H = s.H) ∧
      (len ≤ 55 → t.H = hashBlocks IV [bufBlock (paddedBuffer a) 0]) ∧
      (56 ≤ len → len < 64 → t.H = hashBlocks IV [bufBlock (paddedBuffer a) 0, bufBlock (paddedBuffer a) 1]) ∧
      (len = 64 → t.H = hashBlocks IV [bufBlock a.buf 0, bufBlock (paddedBuffer (drainBlock a)) 0]) := by
  intro a
  have hlen : a.bufLen = len := by simp [a]
  have hH : a.H = IV := by simp [a]
  obtain ⟨-, ⟨hl, rfl⟩ | ⟨hl, b, hb, rfl⟩⟩ := execHash_next h
  · exact ⟨fun _ => rfl, fun _ => by omega, fun _ _ => by omega, fun _ => by omega⟩
  have hcases : (len < 64 ∧ b = a) ∨ (64 ≤ len ∧ b = drainBlock a) := by
    simpa using (absorb_next hl (by simp) hb).2
  rw [enterFinalized_H]
  obtain ⟨hlt, rfl⟩ | ⟨hge, rfl⟩ := hcases
  · refine ⟨fun _ => by omega, fun hle => ?_, fun hge _ => ?_, fun _ => by omega⟩
    · rw [padTail_H_of_le (by omega), hH]
    · rw [padTail_H_of_ge (by omega), hH]
  · refine ⟨fun _ => by omega, fun _ => by omega, fun _ _ => by omega, fun _ => ?_⟩
    rw [padTail_H_of_le (by rw [drainBlock_bufLen]; omega), drainBlock_hashBlocks, hH, ← hashBlocks_append]
    rfl

/-- Settles O24: of the events the write of a command and the power-on reset alone reach HashState. -/
theorem hashStateChangesOnlyByInitAndCompression : Obligations.HashStateChangesOnlyByInitAndCompression := by
  intro s t h
  refine ⟨fun hp => ?_, fun e rest hp => ?_⟩
  · rw [step_of_nil hp] at h
    cases h
    rfl
  rw [step_of_cons hp] at h
  refine ⟨?_, fun hcmd hreset => ?_, ?_⟩
  · rintro rfl
    cases h
    rfl
  · obtain ⟨d, rs, rfl⟩ := perform_next_of_not_command hcmd hreset h
    rfl
  rintro c rfl s0
  have runs {i : Instr} (hd : decode c = .ok i) : exec i s0 = .next t := (perform_commandWrite s0 hd).symm.trans h
  refine ⟨fun why hd => ?_, ?_, fun hd => exec_finalize_H (s := s0) (runs hd), fun len hd => exec_update_H (s := s0) (runs hd),
    fun len hd => exec_hash_H (s := s0) (runs hd)⟩
  · obtain ⟨-, rfl⟩ := rejectCommand_next ((perform_illegalWrite s0 hd).symm.trans h)
    rfl
  · rintro (hd | hd)
    · obtain ⟨-, rfl⟩ := execReset_next (runs hd)
      rfl
    · obtain ⟨-, rfl⟩ := execWipe_next (runs hd)
      rfl

end Sys2Proof.Machine
end

section
/-! PROOFS, family other: ch and maj as choices, the constants as roots, and the engines of a platform. -/

namespace Sys2Proof.Machine

/-! ## Bitwise functions -/

/-- Settles O41: of the two products in ch one is 0 at each bit, and the three of maj cancel where all bits are 1. -/
theorem chooseAndMajorityBits : Obligations.ChooseAndMajorityBits := by
  intro x y z i hi
  rw [ch_getLsbD x y z hi, maj_getLsbD x y z i]
  generalize x.getLsbD i = a, y.getLsbD i = b, z.getLsbD i = c
  revert a b c
  decide

/-! ## The constants (93_implementation_defined.md G1, G2) -/

/-- The first eight primes, in order. -/
def firstPrimes : Vector Nat 8 := #v[2, 3, 5, 7, 11, 13, 17, 19]

/-- Each entry of IV, after an integer part below 5, is its prime's square root rounded down to 32 bits (G1). -/
theorem IV_squareRoot : ∀ i : Fin 8, ∃ n < 5, (n * 2 ^ 32 + IV[i].toNat) ^ 2 ≤ firstPrimes[i] * 2 ^ 64 ∧
    firstPrimes[i] * 2 ^ 64 < (n * 2 ^ 32 + IV[i].toNat + 1) ^ 2 := by
  decide +kernel

/-- Settles O43: eight inequalities between numbers. -/
theorem initialHashValuesAreSquareRoots : Obligations.InitialHashValuesAreSquareRoots := by
  intro i
  obtain ⟨n, -, hroot⟩ := IV_squareRoot i
  exact ⟨firstPrimes[i], n, List.getElem?_eq_getElem i.isLt, hroot⟩

/-- The primes below 312, in order. -/
def primesBelow312 : Vector Nat 64 :=
  #v[2, 3, 5, 7, 11, 13, 17, 19, 23, 29, 31, 37, 41, 43, 47, 53, 59, 61, 67, 71, 73, 79, 83, 89, 97, 101, 103, 107, 109, 113,
    127, 131, 137, 139, 149, 151, 157, 163, 167, 173, 179, 181, 191, 193, 197, 199, 211, 223, 227, 229, 233, 239, 241, 251, 257,
    263, 269, 271, 277, 281, 283, 293, 307, 311]

/-- The numbers below 312 without a proper divisor are the 64 listed. -/
theorem filter_primes_eq :
    ((List.range 312).filter fun p => decide (2 ≤ p ∧ ∀ d < p, 2 ≤ d → p % d ≠ 0)) = primesBelow312.toList := by
  decide +kernel

/-- Each entry of K, after an integer part below 7, is its prime's cube root rounded down to 32 bits (G2). -/
theorem K_cubeRoot : ∀ t : Fin 64, ∃ n < 7, (n * 2 ^ 32 + K[t].toNat) ^ 3 ≤ primesBelow312[t] * 2 ^ 96 ∧
    primesBelow312[t] * 2 ^ 96 < (n * 2 ^ 32 + K[t].toNat + 1) ^ 3 := by
  decide +kernel

/-- Settles O44: sixty-four inequalities between numbers, over the list of primes. -/
theorem roundConstantsAreCubeRoots : Obligations.RoundConstantsAreCubeRoots := by
  unfold Obligations.RoundConstantsAreCubeRoots
  rw [filter_primes_eq]
  refine ⟨Vector.length_toList, fun t => ?_⟩
  obtain ⟨n, -, hroot⟩ := K_cubeRoot t
  refine ⟨primesBelow312[t], n, ?_, hroot⟩
  rw [List.getElem?_eq_getElem (by simp), Vector.getElem_toList]
  rfl

/-! ## The engines of a platform (60_exceptions.md R214) -/

theorem Instance.owns_iff (i : Instance) (addr : Nat) :
    i.owns addr = true ↔ i.base ≤ addr ∧ addr < i.base + Config.windowBytes := by
  simp [Instance.owns]

/-- Windows at aligned bases do not overlap (20_memory.md R67). -/
theorem Instance.base_eq_of_owns {i j : Instance} {addr : Nat} (hi : i.base % Config.windowBytes = 0)
    (hj : j.base % Config.windowBytes = 0) (hiaddr : i.owns addr = true) (hjaddr : j.owns addr = true) : i.base = j.base := by
  rw [Instance.owns_iff] at hiaddr hjaddr
  unfold Config.windowBytes at *
  omega

/-- What a well-formed platform keeps when its first engine is left away: aligned bases, no two equal (R214). -/
def Platform.Separate (p : Platform) : Prop := (∀ i ∈ p, i.base % Config.windowBytes = 0) ∧ (p.map Instance.base).Nodup

theorem Platform.separate_of_wf {p : Platform} (h : p.wf = true) : p.Separate := by
  simp only [Platform.wf, Bool.and_eq_true, List.all_eq_true, beq_iff_eq, decide_eq_true_eq] at h
  obtain ⟨⟨-, halign⟩, hnodup⟩ := h
  exact ⟨halign, hnodup⟩

theorem Platform.Separate.tail {i : Instance} {p : Platform} (h : Platform.Separate (i :: p)) : Platform.Separate p := by
  obtain ⟨halign, hnodup⟩ := h
  exact ⟨fun j hj => halign j (List.mem_cons_of_mem i hj), (List.nodup_cons.1 hnodup).2⟩

/-- On separate bases the first engine does not own what another owns. -/
theorem Platform.Separate.head_owns_false {i j : Instance} {p : Platform} (h : Platform.Separate (i :: p)) (hj : j ∈ p)
    {addr : Nat} (hjaddr : j.owns addr = true) : i.owns addr = false := by
  obtain ⟨halign, hnodup⟩ := h
  rw [← Bool.not_eq_true]
  intro hiaddr
  have hbase := Instance.base_eq_of_owns (halign i (List.mem_cons_self ..)) (halign j (List.mem_cons_of_mem i hj)) hiaddr hjaddr
  exact (List.nodup_cons.1 hnodup).1 (hbase ▸ List.mem_map_of_mem hj)

/-- The platform after engine k answered r: that engine's next state in its place, or its stop. -/
def Platform.answer (p : Platform) (k : Nat) (h : k < p.length) : Result → Host.Outcome Platform Fault Refusal
  | .next t => .next (p.set k { p[k] with engine := t })
  | .fault f => .fault f
  | .refused r => .refused r

/-- The engine that owns the address performs the event, and no other engine changes. -/
theorem Platform.perform_of_owns {e : BusEvent} {p : Platform} (hp : p.Separate) {k : Nat} (hk : k < p.length)
    (howns : p[k].owns e.addr = true) :
    Platform.perform e p = p.answer k hk (Machine.perform (e.atBase p[k].base) p[k].engine) := by
  induction p generalizing k with
  | nil => cases hk
  | cons i rest ih =>
    cases k with
    | zero =>
      have hfirst : i.owns e.addr = true := howns
      rw [Platform.perform, if_pos hfirst]
      cases hr : Machine.perform (e.atBase i.base) i.engine <;> simp [Platform.answer, hr]
    | succ k =>
      have hk' : k < rest.length := Nat.lt_of_succ_lt_succ hk
      have hother := hp.head_owns_false (List.getElem_mem hk') howns
      rw [Platform.perform, if_neg (by rw [hother]; decide), ih hp.tail hk' howns]
      cases hr : Machine.perform (e.atBase rest[k].base) rest[k].engine <;> simp [Platform.answer, hr]

/-- An address in no window reaches no engine (20_memory.md R64; log entry 15). -/
theorem Platform.perform_of_no_owner {e : BusEvent} {p : Platform} (h : ∀ i ∈ p, i.owns e.addr = false) :
    Platform.perform e p = .refused .outsideWindow := by
  induction p with
  | nil => rfl
  | cons i rest ih =>
    have hi := h i (List.mem_cons_self ..)
    rw [Platform.perform, if_neg (by rw [hi]; decide), ih fun j hj => h j (List.mem_cons_of_mem i hj)]

/-- Settles O58: at most one window holds an address, and the search along the list ends at its engine. -/
theorem platformEnginesAreIndependent : Obligations.PlatformEnginesAreIndependent := by
  intro p e hwf
  refine ⟨fun k hk howns => (Platform.perform_of_owns (Platform.separate_of_wf hwf) hk howns).trans ?_,
    Platform.perform_of_no_owner⟩
  cases perform (e.atBase p[k].base) p[k].engine <;> rfl

end Sys2Proof.Machine
end

section
/-! PROOFS, family other: host programs. What a list of host events leads to, by the events it is made of; the digest then follows
for every split of a message and for the pseudo-instructions. -/

namespace Sys2Proof.Machine

/-! ## Runs -/

/-- n steps of the engine. -/
def runSteps (n : Nat) (s : State) : Result := Host.Core.run Sys2Proof.core n s

theorem runSteps_zero (s : State) : runSteps 0 s = .next s := rfl

theorem runSteps_succ (n : Nat) (s : State) : runSteps (n + 1) s = andThen (step s) (runSteps n) := by
  change Host.Core.run Sys2Proof.core (n + 1) s = _
  simp only [Host.Core.run, core]
  cases step s <;> rfl

theorem runSteps_add (m n : Nat) (s : State) : runSteps (m + n) s = andThen (runSteps m s) (runSteps n) := by
  induction m generalizing s with
  | zero => rw [Nat.zero_add, runSteps_zero, andThen_next]
  | succ m ih =>
    rw [Nat.succ_add, runSteps_succ, runSteps_succ]
    cases step s with
    | next t => exact ih t
    | fault f => rfl
    | refused r => rfl

/-- From every state that meets P and has these events first in line, performing them all leads to a state that meets Q. -/
def Leads (es : List HostEvent) (P Q : State → Prop) : Prop :=
  ∀ (s : State) (rest : List HostEvent), s.pending = es ++ rest → P s →
    ∃ t, runSteps es.length s = .next t ∧ t.pending = rest ∧ Q t

section
variable {P Q R : State → Prop} {es fs : List HostEvent}

theorem Leads.nil (P : State → Prop) : Leads [] P P := fun s _ hp hP => ⟨s, rfl, hp, hP⟩

theorem Leads.append (h : Leads es P Q) (h' : Leads fs Q R) : Leads (es ++ fs) P R := by
  intro s rest hp hP
  obtain ⟨t, ht, htp, hQ⟩ := h s (fs ++ rest) (by rw [hp, List.append_assoc]) hP
  obtain ⟨u, hu, hup, hR⟩ := h' t rest htp hQ
  refine ⟨u, ?_, hup, hR⟩
  rw [List.length_append, runSteps_add, ht, andThen_next, hu]

theorem Leads.mono {P' Q' : State → Prop} (h : Leads es P Q) (hP : ∀ s, P' s → P s) (hQ : ∀ s, Q s → Q' s) :
    Leads es P' Q' := by
  intro s rest hp hs
  obtain ⟨t, ht, htp, ht'⟩ := h s rest hp (hP s hs)
  exact ⟨t, ht, htp, hQ t ht'⟩

/-- One event leads where performing it, from the state less the event, leads. -/
theorem Leads.event {e : HostEvent} (h : ∀ (s : State) (rest : List HostEvent), P s →
    ∃ t, perform e { s with pending := rest } = .next t ∧ t.pending = rest ∧ Q t) : Leads [e] P Q := by
  intro s rest hp hP
  obtain ⟨t, ht, htp, hQ⟩ := h s rest hP
  refine ⟨t, ?_, htp, hQ⟩
  rw [List.length_singleton, runSteps_succ, step_of_cons (rest := rest) hp, ht]
  rfl

/-- What the pending events lead to is what a run to their end leaves. -/
theorem Leads.runPending {s : State} (h : Leads es P Q) (hp : s.pending = es) (hP : P s) :
    ∃ t, runPending s = .next t ∧ t.pending = [] ∧ Q t := by
  obtain ⟨t, ht, htp, hQ⟩ := h s [] (by rw [hp, List.append_nil]) hP
  rw [← hp] at ht
  exact ⟨t, ht, htp, hQ⟩

end

/-! ## Commands -/

/-- A command changes neither the events to come nor the values read. -/
theorem exec_host {i : Instr} {s t : State} (h : exec i s = .next t) : t.pending = s.pending ∧ t.reads = s.reads := by
  cases i with
  | update len =>
    obtain ⟨hok, ⟨-, rfl⟩ | ⟨-, -, rfl⟩ | ⟨hl, -, a, ha, rfl⟩⟩ := execUpdate_next h
    · exact ⟨rfl, rfl⟩
    · exact ⟨rfl, rfl⟩
    · obtain ⟨hpending, hreads, -⟩ := absorb_host hl (bufLen_le_of_commandStartOk hok) ha
      exact ⟨hpending, hreads⟩
  | finalize =>
    obtain ⟨-, ⟨-, rfl⟩ | ⟨-, rfl⟩⟩ := execFinalize_next h <;> simp
  | reset =>
    obtain ⟨-, rfl⟩ := execReset_next h
    simp
  | wipe =>
    obtain ⟨-, rfl⟩ := execWipe_next h
    simp
  | hash len =>
    obtain ⟨-, ⟨-, rfl⟩ | ⟨hl, a, ha, rfl⟩⟩ := execHash_next h
    · exact ⟨rfl, rfl⟩
    · obtain ⟨hpending, hreads, -⟩ := absorb_host hl (by simp) ha
      simp [hpending, hreads]

/-- The write of a command's word leads where the command leads, and the values read stay. -/
theorem Leads.command {P Q : State → Prop} {i : Instr} {rs : List Word} (hwf : i.WellFormed)
    (h : ∀ (s : State) (rest : List HostEvent), P s → ∃ t, exec i { s with pending := rest } = .next t ∧ Q t) :
    Leads [commandWrite (encode i)] (fun s => P s ∧ s.reads = rs) fun s => Q s ∧ s.reads = rs := by
  refine Leads.event fun s rest hP => ?_
  obtain ⟨hP, hrs⟩ := hP
  obtain ⟨t, ht, hQ⟩ := h s rest hP
  obtain ⟨hpending, hreads⟩ := exec_host ht
  exact ⟨t, (perform_commandWrite _ (decodeOfEncodeIsTheCommand i hwf)).trans ht, hpending, hQ, hreads.trans hrs⟩

/-- The engine is FINALIZED, without an error, with the digest of m and its length in the counter. -/
def State.Digested (m : List Byte) (s : State) : Prop :=
  s.fsm = .finalized ∧ s.err = .ok ∧ s.bufLen = 0 ∧ s.H = sha256 m ∧ s.byteCount.toNat = m.length

/-- STATUS of such an engine (10_state.md R37). -/
theorem State.Digested.statusWord_eq {m : List Byte} {s : State} (h : s.Digested m) : statusWord s = 0x00000002 := by
  obtain ⟨hf, he, hb, -⟩ := h
  rw [statusWord, hf, he, hb]
  rfl

section
variable {m : List Byte} {rs : List Word}

theorem leads_reset :
    Leads [commandWrite (encode .reset)] (fun s => s.Inv ∧ s.reads = rs) fun s => s.Absorbing [] ∧ s.reads = rs := by
  refine Leads.command trivial fun s rest hinv => ?_
  have hinv : { s with pending := rest }.Inv := hinv
  exact ⟨_, execReset_eq (commandStartOk_of_inv hinv), init_absorbing _⟩

theorem leads_finalize :
    Leads [commandWrite (encode .finalize)] (fun s => s.Absorbing m ∧ s.reads = rs) fun s => s.Digested m ∧ s.reads = rs := by
  refine Leads.command trivial fun s rest habs => ?_
  have habs : { s with pending := rest }.Absorbing m := habs
  have ⟨hf, _, hcount, _⟩ := habs
  refine ⟨_, exec_finalize_of_not_finalized habs.inv hf, rfl, rfl, rfl, padTail_sha256 habs, ?_⟩
  rw [enterFinalized_byteCount, padTail_byteCount, hcount]

theorem leads_hash (hm : m.length ≤ 64) :
    Leads [commandWrite (encode (.hash m.length))] (fun s => (s.Inv ∧ chunk s.din m.length = m) ∧ s.reads = rs)
      fun s => s.Digested m ∧ s.reads = rs := by
  refine Leads.command (by simp only [Instr.WellFormed]; omega) fun s rest hP => ?_
  obtain ⟨hinv, hchunk⟩ := hP
  obtain ⟨t, ht, hf, hH, hcount, hb, he, -⟩ := hashGivesTheDigestOfItsChunk { s with pending := rest } m.length hinv hm
  exact ⟨t, ht, hf, he, hb, hchunk ▸ hH, hcount⟩

theorem leads_update {c : List Byte} (hc : c.length ≤ 64) (hm : (m ++ c).length ≤ Config.maxMessageBytes) :
    Leads [commandWrite (encode (.update c.length))] (fun s => (s.Absorbing m ∧ chunk s.din c.length = c) ∧ s.reads = rs)
      fun s => s.Absorbing (m ++ c) ∧ s.reads = rs := by
  refine Leads.command (by simp only [Instr.WellFormed]; omega) fun s rest hP => ?_
  obtain ⟨habs, hchunk⟩ := hP
  obtain ⟨t, ht, habs'⟩ := updateAbsorbsItsChunk m { s with pending := rest } c.length habs hc (List.length_append ▸ hm)
  exact ⟨t, ht, hchunk ▸ habs'⟩

end

/-! ## Loading DIN -/

/-- Byte k of Word j that LOAD writes (30_encoding.md R90). -/
theorem wordByte_loadWord (p : List Byte) (j : Nat) (k : Fin 4) : wordByte (loadWord p j) k = p.getD (4 * j + k.val) 0 := by
  obtain ⟨h0, h1, h2, h3⟩ :=
    wordByte_be32 (p.getD (4 * j) 0) (p.getD (4 * j + 1) 0) (p.getD (4 * j + 2) 0) (p.getD (4 * j + 3) 0)
  match k with
  | 0 => exact h0
  | 1 => exact h1
  | 2 => exact h2
  | 3 => exact h3

/-- Where DIN holds the Words that LOAD writes, the chunk is the bytes loaded (R82, R90). -/
theorem chunk_of_loaded {p : List Byte} {d : Vector Word 16} (hp : p.length ≤ 64)
    (hd : ∀ j : Fin 16, j.val < (p.length + 3) / 4 → d[j] = loadWord p j.val) : chunk d p.length = p := by
  apply List.ext_getElem (chunk_length d hp)
  intro n hn hnp
  have hpos : 4 * (n / 4) + n % 4 = n := by omega
  calc (chunk d p.length)[n]
    _ = dinByte d ⟨n, by omega⟩ := by rw [← chunk_getD d ⟨n, by omega⟩ hnp, List.getD_eq_getElem]
    _ = wordByte (loadWord p (n / 4)) ⟨n % 4, by omega⟩ :=
      congrArg (wordByte · _) (hd ⟨n / 4, by omega⟩ (by simp only; omega))
    _ = p[n] := by rw [wordByte_loadWord, hpos, List.getD_eq_getElem]

section
variable {P : State → Prop}
  (hP : ∀ (s : State) (es : List HostEvent) (d : Vector Word 16), P s → P { s with pending := es, din := d })
include hP

/-- The first n writes of LOAD leave n Words in DIN, and what does not speak of DIN as it was. -/
theorem leads_loadWords (p : List Byte) {n : Nat} (hn : n ≤ 16) :
    Leads ((List.range n).map fun j => .memWrite (0x040 + 4 * j) 4 (loadWord p j)) P
      fun s => P s ∧ ∀ j : Fin 16, j.val < n → s.din[j] = loadWord p j.val := by
  induction n with
  | zero => exact (Leads.nil P).mono (fun _ h => h) fun _ h => ⟨h, fun _ hj => absurd hj (Nat.not_lt_zero _)⟩
  | succ n ih =>
    rw [List.range_succ, List.map_append]
    refine (ih (by omega)).append (Leads.event fun s rest hs => ?_)
    obtain ⟨hs, hd⟩ := hs
    have hreg : accessTarget (0x040 + 4 * n) 4 = .ok (.din ⟨n, hn⟩) := accessTarget_offset (.din ⟨n, hn⟩)
    refine ⟨{ s with pending := rest, din := s.din.set n (loadWord p n) }, ?_, rfl, hP s _ _ hs, fun j hj => ?_⟩
    · rw [perform, hreg]
      rfl
    · by_cases hjn : j.val = n
      · simp [← hjn]
      · rw [Fin.getElem_fin, Vector.getElem_set_ne hn j.isLt (Ne.symm hjn)]
        exact hd j (by omega)

/-- LOAD makes its bytes the chunk, and the values read stay (R90). -/
theorem leads_load {p : List Byte} {rs : List Word} (hp : p.length ≤ 64) :
    Leads (loadEvents p) (fun s => P s ∧ s.reads = rs) fun s => (P s ∧ chunk s.din p.length = p) ∧ s.reads = rs := by
  have hP' (s : State) (es : List HostEvent) (d : Vector Word 16) (h : P s ∧ s.reads = rs) :
      P { s with pending := es, din := d } ∧ s.reads = rs := ⟨hP s es d h.1, h.2⟩
  have hwords := leads_loadWords (P := fun s => P s ∧ s.reads = rs) hP' p (n := (p.length + 3) / 4) (by omega)
  exact hwords.mono (fun _ h => h) fun _ ⟨⟨hs, hrs⟩, hd⟩ => ⟨⟨hs, chunk_of_loaded hp hd⟩, hrs⟩

end

/-! ## Submitting a message in chunks -/

section
variable {m : List Byte} {rs : List Word}

/-- A chunk loaded and submitted is absorbed (R91). -/
theorem leads_submit {c : List Byte} (hc : c.length ≤ 64) (hm : (m ++ c).length ≤ Config.maxMessageBytes) :
    Leads (submitEvents c) (fun s => s.Absorbing m ∧ s.reads = rs) fun s => s.Absorbing (m ++ c) ∧ s.reads = rs :=
  (leads_load (P := State.Absorbing m) (fun _ _ _ h => h) hc).append (leads_update hc hm)

/-- So is a list of chunks, one after the other. -/
theorem leads_chunks {cs : List (List Byte)} (hcs : ∀ c ∈ cs, c.length ≤ 64)
    (hm : (m ++ cs.flatten).length ≤ Config.maxMessageBytes) :
    Leads (cs.flatMap submitEvents) (fun s => s.Absorbing m ∧ s.reads = rs)
      fun s => s.Absorbing (m ++ cs.flatten) ∧ s.reads = rs := by
  induction cs generalizing m with
  | nil => exact (Leads.nil _).mono (fun _ h => h) fun _ h => by rwa [List.flatten_nil, List.append_nil]
  | cons c cs ih =>
    rw [List.flatten_cons, ← List.append_assoc] at hm ⊢
    have hmc : (m ++ c).length ≤ Config.maxMessageBytes := by
      rw [List.length_append] at hm
      omega
    exact (leads_submit (hcs c (List.mem_cons_self ..)) hmc).append (ih (fun d hd => hcs d (List.mem_cons_of_mem c hd)) hm)

/-- RESET, the chunks of a message, FINALIZE leave its digest, whatever the chunks. -/
theorem leads_digest {cs : List (List Byte)} (hcs : ∀ c ∈ cs, c.length ≤ 64)
    (hm : cs.flatten.length ≤ Config.maxMessageBytes) :
    Leads ([commandWrite (encode .reset)] ++ cs.flatMap submitEvents ++ [commandWrite (encode .finalize)])
      (fun s => s.Inv ∧ s.reads = rs) fun s => s.Digested cs.flatten ∧ s.reads = rs :=
  (leads_reset.append (leads_chunks (m := []) hcs hm)).append leads_finalize

end

/-- The pieces of 64 bytes put together again are the string (R91). -/
theorem flatten_pieces (m : List Byte) : (pieces m).flatten = m := by
  have htake (n : Nat) : ((List.range n).map fun i => (m.drop (64 * i)).take 64).flatten = m.take (64 * n) := by
    induction n with
    | zero => rfl
    | succ n ih => rw [List.range_succ, List.map_append, List.flatten_append, ih, List.map_singleton, List.flatten_singleton,
        Nat.mul_succ, List.take_add]
  rw [pieces, htake, List.take_of_length_le (by omega)]

theorem length_le_of_mem_pieces {m c : List Byte} (h : c ∈ pieces m) : c.length ≤ 64 := by
  obtain ⟨i, -, rfl⟩ := List.mem_map.1 h
  exact List.length_take_le _ _

/-- RESET, ABSORB m, FINALIZE leave the digest of m: ABSORB submits the pieces of m (R91). -/
theorem leads_absorb {m : List Byte} {rs : List Word} (hm : m.length ≤ Config.maxMessageBytes) :
    Leads ([commandWrite (encode .reset)] ++ absorbEvents m ++ [commandWrite (encode .finalize)])
      (fun s => s.Inv ∧ s.reads = rs) fun s => s.Digested m ∧ s.reads = rs := by
  have h := leads_digest (rs := rs) (cs := pieces m) (fun c => length_le_of_mem_pieces) (by rwa [flatten_pieces])
  rwa [flatten_pieces] at h

/-- Settles O56: any chunks leave the digest of what they put together, and the pieces of ABSORB are such chunks. -/
theorem digestIsChunkInvariant : Obligations.DigestIsChunkInvariant := by
  intro s m hinv hm Final
  have final {es : List HostEvent} (h : Leads es (fun t => t.Inv ∧ t.reads = s.reads) fun t => t.Digested m ∧ t.reads = s.reads)
      (hp : s.pending = es) : ∃ t, runPending s = .next t ∧ Final t := by
    obtain ⟨t, ht, htp, hdig, -⟩ := h.runPending hp ⟨hinv, rfl⟩
    have ⟨hf, _, _, hH, hcount⟩ := hdig
    exact ⟨t, ht, htp, hH, hcount, hf, hdig.statusWord_eq⟩
  refine ⟨?_, final (leads_absorb hm)⟩
  rintro cs rfl hcs
  exact final (leads_digest hcs hm)

/-! ## Reading the digest -/

/-- Reading DIGEST registers of a FINALIZED engine returns Words of HashState, in order (44_controller.md R179). -/
theorem leads_readDigests (H : Vector Word 8) (is : List (Fin 8)) (rs : List Word) :
    Leads (is.map fun i => readFrom (.digest i)) (fun s => (s.fsm = .finalized ∧ s.H = H) ∧ s.reads = rs)
      fun s => s.reads = rs ++ is.map fun i => H[i] := by
  induction is generalizing rs with
  | nil => exact (Leads.nil _).mono (fun _ h => h) fun _ ⟨_, h⟩ => by rw [h, List.map_nil, List.append_nil]
  | cons i is ih =>
    have first : Leads [readFrom (.digest i)] (fun s => (s.fsm = .finalized ∧ s.H = H) ∧ s.reads = rs)
        fun s => (s.fsm = .finalized ∧ s.H = H) ∧ s.reads = rs ++ [H[i]] := by
      refine Leads.event fun s rest hs => ?_
      obtain ⟨⟨hf, rfl⟩, rfl⟩ := hs
      refine ⟨{ s with pending := rest, reads := s.reads ++ [s.H[i]] }, ?_, rfl, ⟨hf, rfl⟩, rfl⟩
      simp only [perform, readFrom, accessTarget_offset, readReg, hf, if_true]
    exact (first.append (ih (rs ++ [H[i]]))).mono (fun _ h => h) fun _ h => by
      rw [h, List.append_assoc, List.map_cons, List.singleton_append]

/-- READDIGEST reads the eight Words of the digest (30_encoding.md R92). -/
theorem leads_readDigest {m : List Byte} {rs : List Word} :
    Leads readDigestEvents (fun s => s.Digested m ∧ s.reads = rs) fun s => s.reads = rs ++ (sha256 m).toList := by
  have hwords : (List.finRange 8).map (fun i => (sha256 m)[i]) = (sha256 m).toList := by
    rw [← List.ofFn_eq_map, ← Vector.toList_ofFn]
    exact congrArg _ Vector.ofFn_getElem
  rw [← hwords]
  have hread := leads_readDigests (sha256 m) (List.finRange 8) rs
  exact hread.mono (fun _ ⟨⟨hf, _, _, hH, _⟩, hrs⟩ => ⟨⟨hf, hH⟩, hrs⟩) fun _ h => h

/-- Settles O57: both programs leave the digest in HashState, and READDIGEST reads it. -/
theorem sha256PseudoInstructionReadsTheDigest : Obligations.Sha256PseudoInstructionReadsTheDigest := by
  intro s m hinv hm
  refine ⟨fun hp => ((leads_absorb hm).append leads_readDigest).runPending hp ⟨hinv, rfl⟩, fun hm64 hp => ?_⟩
  have hload := leads_load (P := State.Inv) (rs := s.reads) (fun _ _ _ h => h) hm64
  exact ((hload.append (leads_hash hm64)).append leads_readDigest).runPending hp ⟨hinv, rfl⟩

end Sys2Proof.Machine
end
